-- ==== Sys2Proof/Word.lean ====
section
/-! DEFINITION. The word types of the machine (00_scope.md R11, R12; spec widths of R8). -/

namespace Sys2Proof

/-- A memory byte, a `V` register, a timer or an immediate `kk` (00_scope.md R8). -/
abbrev Byte := BitVec 8

/-- `PC`, `I`, a stack entry or an opcode (00_scope.md R8). -/
abbrev Word := BitVec 16

/-- The 12-bit address field `NNN` of an opcode (30_encoding.md R71). -/
abbrev Addr := BitVec 12

/-- A 4-bit opcode field: a register index, a sprite height, a key (00_scope.md R12). -/
abbrev Nibble := BitVec 4

end Sys2Proof
end

