-- ==== Sys2Proof/Syntax.lean ====
section
/-! DEFINITION. The 35 instructions, one constructor for each row of the opcode map (30_encoding.md
R77), named after the decode function of R75. -/

namespace Sys2Proof

/-- One instruction with its operand fields (30_encoding.md R71, R75, R77). `x` and `y` select any of
`V0`..`VF` (R73); `kk`, `nnn` and `n` are unsigned. -/
inductive Instr where
  /-- `00E0` CLS -/
  | cls
  /-- `00EE` RET -/
  | ret
  /-- `0NNN` (other) SYS: the unsupported legacy call (R78) -/
  | sys (nnn : Addr)
  /-- `1NNN` JP addr -/
  | jp (nnn : Addr)
  /-- `2NNN` CALL addr -/
  | call (nnn : Addr)
  /-- `3XKK` SE Vx, byte -/
  | seImm (x : Nibble) (kk : Byte)
  /-- `4XKK` SNE Vx, byte -/
  | sneImm (x : Nibble) (kk : Byte)
  /-- `5XY0` SE Vx, Vy -/
  | seReg (x y : Nibble)
  /-- `6XKK` LD Vx, byte -/
  | ldImm (x : Nibble) (kk : Byte)
  /-- `7XKK` ADD Vx, byte -/
  | addImm (x : Nibble) (kk : Byte)
  /-- `8XY0` LD Vx, Vy -/
  | ldReg (x y : Nibble)
  /-- `8XY1` OR Vx, Vy -/
  | orReg (x y : Nibble)
  /-- `8XY2` AND Vx, Vy -/
  | andReg (x y : Nibble)
  /-- `8XY3` XOR Vx, Vy -/
  | xorReg (x y : Nibble)
  /-- `8XY4` ADD Vx, Vy -/
  | addReg (x y : Nibble)
  /-- `8XY5` SUB Vx, Vy -/
  | subReg (x y : Nibble)
  /-- `8XY6` SHR Vx, Vy -/
  | shr (x y : Nibble)
  /-- `8XY7` SUBN Vx, Vy -/
  | subnReg (x y : Nibble)
  /-- `8XYE` SHL Vx, Vy -/
  | shl (x y : Nibble)
  /-- `9XY0` SNE Vx, Vy -/
  | sneReg (x y : Nibble)
  /-- `ANNN` LD I, addr -/
  | ldI (nnn : Addr)
  /-- `BNNN` JP V0, addr -/
  | jpV0 (nnn : Addr)
  /-- `CXKK` RND Vx, byte -/
  | rnd (x : Nibble) (kk : Byte)
  /-- `DXYN` DRW Vx, Vy, nibble -/
  | drw (x y n : Nibble)
  /-- `EX9E` SKP Vx -/
  | skp (x : Nibble)
  /-- `EXA1` SKNP Vx -/
  | sknp (x : Nibble)
  /-- `FX07` LD Vx, DT -/
  | ldVxDt (x : Nibble)
  /-- `FX0A` LD Vx, K -/
  | ldVxK (x : Nibble)
  /-- `FX15` LD DT, Vx -/
  | ldDtVx (x : Nibble)
  /-- `FX18` LD ST, Vx -/
  | ldStVx (x : Nibble)
  /-- `FX1E` ADD I, Vx -/
  | addIVx (x : Nibble)
  /-- `FX29` LD F, Vx -/
  | ldFVx (x : Nibble)
  /-- `FX33` LD B, Vx -/
  | ldBVx (x : Nibble)
  /-- `FX55` LD [I], Vx -/
  | ldMemVx (x : Nibble)
  /-- `FX65` LD Vx, [I] -/
  | ldVxMem (x : Nibble)
  deriving DecidableEq, Repr

/-- The one reason a word is no instruction, with the word: it matches no pattern of its family
(30_encoding.md R79). -/
inductive DecodeError where
  | illegalOpcode (op : Word)
  deriving DecidableEq, Repr

end Sys2Proof
end

