-- ==== Sys2Proof/Decode.lean ====
section
/-! DEFINITION. The fields of an opcode, the decoder, total on every 16-bit word, and the encoder
(30_encoding.md). -/

namespace Sys2Proof

/-! ## Fields (30_encoding.md R71) -/

/-- `nib3 = op[15:12]`, the family. -/
def fieldFamily (op : Word) : Nibble := op.extractLsb' 12 4

/-- `x = op[11:8]`. -/
def fieldX (op : Word) : Nibble := op.extractLsb' 8 4

/-- `y = op[7:4]`. -/
def fieldY (op : Word) : Nibble := op.extractLsb' 4 4

/-- `n = op[3:0]`. -/
def fieldN (op : Word) : Nibble := op.extractLsb' 0 4

/-- `kk = op[7:0]`. -/
def fieldKk (op : Word) : Byte := op.extractLsb' 0 8

/-- `NNN = op[11:0]`. -/
def fieldNnn (op : Word) : Addr := op.extractLsb' 0 12

/-- The opcode of two consecutive bytes: the byte at the lower address is the high byte (20_memory.md
R57). -/
def opcodeOf (hi lo : Byte) : Word := hi ++ lo

/-- The high byte of a word, which stands at the lower address (20_memory.md R57). -/
def highByte (op : Word) : Byte := op.extractLsb' 8 8

/-- The low byte of a word, which stands at the higher address (20_memory.md R57). -/
def lowByte (op : Word) : Byte := op.extractLsb' 0 8

/-! ## Decoding (30_encoding.md R75) -/

/-- Family 8: the sub-function is `n` (30_encoding.md R75; 41_register_alu.md R134). -/
def decodeAlu (op : Word) : Except DecodeError Instr :=
  match (fieldN op).toNat with
  | 0x0 => .ok (.ldReg (fieldX op) (fieldY op))
  | 0x1 => .ok (.orReg (fieldX op) (fieldY op))
  | 0x2 => .ok (.andReg (fieldX op) (fieldY op))
  | 0x3 => .ok (.xorReg (fieldX op) (fieldY op))
  | 0x4 => .ok (.addReg (fieldX op) (fieldY op))
  | 0x5 => .ok (.subReg (fieldX op) (fieldY op))
  | 0x6 => .ok (.shr (fieldX op) (fieldY op))
  | 0x7 => .ok (.subnReg (fieldX op) (fieldY op))
  | 0xE => .ok (.shl (fieldX op) (fieldY op))
  | _ => .error (.illegalOpcode op)

/-- Family E: the sub-function is `kk` (30_encoding.md R75). -/
def decodeKeySkip (op : Word) : Except DecodeError Instr :=
  match (fieldKk op).toNat with
  | 0x9E => .ok (.skp (fieldX op))
  | 0xA1 => .ok (.sknp (fieldX op))
  | _ => .error (.illegalOpcode op)

/-- Family F: the sub-function is `kk` (30_encoding.md R75). -/
def decodeMisc (op : Word) : Except DecodeError Instr :=
  match (fieldKk op).toNat with
  | 0x07 => .ok (.ldVxDt (fieldX op))
  | 0x0A => .ok (.ldVxK (fieldX op))
  | 0x15 => .ok (.ldDtVx (fieldX op))
  | 0x18 => .ok (.ldStVx (fieldX op))
  | 0x1E => .ok (.addIVx (fieldX op))
  | 0x29 => .ok (.ldFVx (fieldX op))
  | 0x33 => .ok (.ldBVx (fieldX op))
  | 0x55 => .ok (.ldMemVx (fieldX op))
  | 0x65 => .ok (.ldVxMem (fieldX op))
  | _ => .error (.illegalOpcode op)

/-- The decode function (30_encoding.md R75). It depends on the word alone (R74). A `LEGACY_CALL` word
decodes to `Instr.sys`, whose meaning raises the fatal (R76, R78); an `ILLEGAL_OPCODE` word is rejected
(R79). -/
def decode (op : Word) : Except DecodeError Instr :=
  match (fieldFamily op).toNat with
  | 0x0 =>
    if op = 0x00E0#16 then .ok .cls
    else if op = 0x00EE#16 then .ok .ret
    else .ok (.sys (fieldNnn op))
  | 0x1 => .ok (.jp (fieldNnn op))
  | 0x2 => .ok (.call (fieldNnn op))
  | 0x3 => .ok (.seImm (fieldX op) (fieldKk op))
  | 0x4 => .ok (.sneImm (fieldX op) (fieldKk op))
  | 0x5 => if fieldN op = 0x0#4 then .ok (.seReg (fieldX op) (fieldY op)) else .error (.illegalOpcode op)
  | 0x6 => .ok (.ldImm (fieldX op) (fieldKk op))
  | 0x7 => .ok (.addImm (fieldX op) (fieldKk op))
  | 0x8 => decodeAlu op
  | 0x9 => if fieldN op = 0x0#4 then .ok (.sneReg (fieldX op) (fieldY op)) else .error (.illegalOpcode op)
  | 0xA => .ok (.ldI (fieldNnn op))
  | 0xB => .ok (.jpV0 (fieldNnn op))
  | 0xC => .ok (.rnd (fieldX op) (fieldKk op))
  | 0xD => .ok (.drw (fieldX op) (fieldY op) (fieldN op))
  | 0xE => decodeKeySkip op
  | _ => decodeMisc op

/-! ## Encoding (30_encoding.md R72, R77) -/

/-- Format `NNN`: opcode, address (30_encoding.md R72). -/
def packNnn (family : Nibble) (nnn : Addr) : Word := (family ++ nnn : BitVec (4 + 12))

/-- Format `XKK`: opcode, `x`, byte; format `XFN` is this layout with the sub-function as the byte
(30_encoding.md R72). -/
def packXkk (family x : Nibble) (kk : Byte) : Word := (family ++ (x ++ kk : BitVec (4 + 8)) : BitVec (4 + 12))

/-- Format `XYN`: opcode, `x`, `y`, `n` or the sub-function (30_encoding.md R72). -/
def packXyn (family x y n : Nibble) : Word :=
  (family ++ (x ++ (y ++ n : BitVec (4 + 4)) : BitVec (4 + 8)) : BitVec (4 + 12))

/-- The word of an instruction (30_encoding.md R72, R77). -/
def encode : Instr → Word
  | .cls => 0x00E0#16
  | .ret => 0x00EE#16
  | .sys nnn => packNnn 0x0#4 nnn
  | .jp nnn => packNnn 0x1#4 nnn
  | .call nnn => packNnn 0x2#4 nnn
  | .seImm x kk => packXkk 0x3#4 x kk
  | .sneImm x kk => packXkk 0x4#4 x kk
  | .seReg x y => packXyn 0x5#4 x y 0x0#4
  | .ldImm x kk => packXkk 0x6#4 x kk
  | .addImm x kk => packXkk 0x7#4 x kk
  | .ldReg x y => packXyn 0x8#4 x y 0x0#4
  | .orReg x y => packXyn 0x8#4 x y 0x1#4
  | .andReg x y => packXyn 0x8#4 x y 0x2#4
  | .xorReg x y => packXyn 0x8#4 x y 0x3#4
  | .addReg x y => packXyn 0x8#4 x y 0x4#4
  | .subReg x y => packXyn 0x8#4 x y 0x5#4
  | .shr x y => packXyn 0x8#4 x y 0x6#4
  | .subnReg x y => packXyn 0x8#4 x y 0x7#4
  | .shl x y => packXyn 0x8#4 x y 0xE#4
  | .sneReg x y => packXyn 0x9#4 x y 0x0#4
  | .ldI nnn => packNnn 0xA#4 nnn
  | .jpV0 nnn => packNnn 0xB#4 nnn
  | .rnd x kk => packXkk 0xC#4 x kk
  | .drw x y n => packXyn 0xD#4 x y n
  | .skp x => packXkk 0xE#4 x 0x9E#8
  | .sknp x => packXkk 0xE#4 x 0xA1#8
  | .ldVxDt x => packXkk 0xF#4 x 0x07#8
  | .ldVxK x => packXkk 0xF#4 x 0x0A#8
  | .ldDtVx x => packXkk 0xF#4 x 0x15#8
  | .ldStVx x => packXkk 0xF#4 x 0x18#8
  | .addIVx x => packXkk 0xF#4 x 0x1E#8
  | .ldFVx x => packXkk 0xF#4 x 0x29#8
  | .ldBVx x => packXkk 0xF#4 x 0x33#8
  | .ldMemVx x => packXkk 0xF#4 x 0x55#8
  | .ldVxMem x => packXkk 0xF#4 x 0x65#8

/-! ## The opcode map (30_encoding.md R77) -/

/-- The mask and match columns of an instruction's row (30_encoding.md R77): a word matches the row when
`op & mask = match`. -/
def opcodeRow : Instr → Word × Word
  | .cls => (0xFFFF#16, 0x00E0#16)
  | .ret => (0xFFFF#16, 0x00EE#16)
  | .sys _ => (0xF000#16, 0x0000#16)
  | .jp _ => (0xF000#16, 0x1000#16)
  | .call _ => (0xF000#16, 0x2000#16)
  | .seImm _ _ => (0xF000#16, 0x3000#16)
  | .sneImm _ _ => (0xF000#16, 0x4000#16)
  | .seReg _ _ => (0xF00F#16, 0x5000#16)
  | .ldImm _ _ => (0xF000#16, 0x6000#16)
  | .addImm _ _ => (0xF000#16, 0x7000#16)
  | .ldReg _ _ => (0xF00F#16, 0x8000#16)
  | .orReg _ _ => (0xF00F#16, 0x8001#16)
  | .andReg _ _ => (0xF00F#16, 0x8002#16)
  | .xorReg _ _ => (0xF00F#16, 0x8003#16)
  | .addReg _ _ => (0xF00F#16, 0x8004#16)
  | .subReg _ _ => (0xF00F#16, 0x8005#16)
  | .shr _ _ => (0xF00F#16, 0x8006#16)
  | .subnReg _ _ => (0xF00F#16, 0x8007#16)
  | .shl _ _ => (0xF00F#16, 0x800E#16)
  | .sneReg _ _ => (0xF00F#16, 0x9000#16)
  | .ldI _ => (0xF000#16, 0xA000#16)
  | .jpV0 _ => (0xF000#16, 0xB000#16)
  | .rnd _ _ => (0xF000#16, 0xC000#16)
  | .drw _ _ _ => (0xF000#16, 0xD000#16)
  | .skp _ => (0xF0FF#16, 0xE09E#16)
  | .sknp _ => (0xF0FF#16, 0xE0A1#16)
  | .ldVxDt _ => (0xF0FF#16, 0xF007#16)
  | .ldVxK _ => (0xF0FF#16, 0xF00A#16)
  | .ldDtVx _ => (0xF0FF#16, 0xF015#16)
  | .ldStVx _ => (0xF0FF#16, 0xF018#16)
  | .addIVx _ => (0xF0FF#16, 0xF01E#16)
  | .ldFVx _ => (0xF0FF#16, 0xF029#16)
  | .ldBVx _ => (0xF0FF#16, 0xF033#16)
  | .ldMemVx _ => (0xF0FF#16, 0xF055#16)
  | .ldVxMem _ => (0xF0FF#16, 0xF065#16)

/-! ## Words as spec/opcode_table.json numbers them -/

/-- The one 16-bit word of an instruction whose table bits are the low `nbits` bits of `w`, the bits
above being 0 (30_encoding.md R70). -/
def tableWord (nbits w : Nat) : Word := BitVec.ofNat 16 (w % 2 ^ nbits)

/-- What the decoder reads from that word laid out as the hardware stores it, high byte first
(20_memory.md R57). -/
def decodeTableWord (nbits w : Nat) : Option Instr :=
  match decode (opcodeOf (highByte (tableWord nbits w)) (lowByte (tableWord nbits w))) with
  | .ok i => some i
  | .error _ => none

end Sys2Proof
end

