-- ==== Sys2Proof/Config.lean ====
section
/-! DEFINITION. The open parameter of the machine that is a draw: the random byte of `CXKK`. The other
open parameters (`PROGRAM`, `QUIRK`, `FONT`, `INIT_FILL`; 00_scope.md R9) are arguments of
`Sys2Proof.Machine.construct`, and the fixed sizes stand in Machine/Ops.lean. -/

namespace Sys2Proof

/-- DESIGN CHOICE (log entry 8), safe for claims about one session. The byte of the `k`-th `Rand8()` draw of
a session: a free value, with no law (41_register_alu.md R153; 92_eei_decisions.md D19). It has no body,
so nothing can be proved of it.

DESIGN CHOICE (log entry 17), unsafe. One constant serves every session, so two sessions draw the same bytes
in the same order, where the spec assumes no relation between their draws (60_exceptions.md R265;
93_implementation_defined.md U3): a claim that compares two sessions says so as "with the same draws". -/
opaque Config.rand8 : Nat → Byte

end Sys2Proof
end

