-- ==== Sys2Proof/Machine/State.lean ====
section
/-! DEFINITION. The state of one session as plain data (10_state.md R20), the reasons an operation can
stop, and the state after reset (10_state.md R39). -/

namespace Sys2Proof.Machine

/-- The six fatal causes (60_exceptions.md R250). Taking one is a next state of the machine
(Machine/Ops.lean, `takeFatal`), not a stop of the model. -/
inductive FatalCause where
  /-- code 1: a `0NNN` word other than `00E0` and `00EE` -/
  | legacyCall
  /-- code 2: a word that matches no pattern of its family -/
  | illegalOpcode
  /-- code 3: a byte access at an address of 4095 or above -/
  | memBounds
  /-- code 4: `2NNN` with 16 live frames -/
  | stackOverflow
  /-- code 5: `00EE` with no live frame -/
  | stackUnderflow
  /-- code 6: a write at or below 0x04F -/
  | fontWrite
  deriving DecidableEq, Repr

/-- A raised fatal condition, `raise Fatal(cause, addr)` (60_exceptions.md R250, R252). The address is a
natural, since address sums do not wrap (20_memory.md R51). -/
structure Raised where
  cause : FatalCause
  addr  : Option Nat
  deriving DecidableEq, Repr

/-- The record `FAULT` holds (10_state.md R35). -/
structure FaultRecord where
  cause  : FatalCause
  pc     : Word
  opcode : Option Word
  addr   : Option Nat
  deriving DecidableEq, Repr

/-- `MEM` (10_state.md R32) as (address, byte) pairs in the canonical form of `Memory.wf`. -/
abbrev Memory := List Host.Cell

/-- `FB` (10_state.md R31): 32 rows of 64 one-bit pixels, `FB[px + 64 * py]` being bit `px` of row `py`
(log entry 3). -/
abbrev Framebuffer := Vector (BitVec 64) 32

/-- The state tuple of 10_state.md R20, and one field of the model's own (`draws`). -/
structure State where
  /-- `V0`..`VF` (R21, R22) -/
  v      : Vector Byte 16
  /-- `I` (R24) -/
  i      : Word
  /-- `PC` (R25) -/
  pc     : Word
  /-- `SP` (R26): none is −1 (empty), some `j` is `j` (log entry 1) -/
  sp     : Option (Fin 16)
  /-- `STACK[0..15]` (R26) -/
  stack  : Vector Word 16
  /-- `DT` (R28) -/
  dt     : Byte
  /-- `ST` (R29) -/
  st     : Byte
  /-- `KEY` (R30): none or a key (log entry 2) -/
  key    : Option Nibble
  /-- `FB` (R31) -/
  fb     : Framebuffer
  /-- `MEM` (R32) -/
  mem    : Memory
  /-- `QUIRK` (R33) -/
  quirk  : Bool
  /-- `HALTED` (R34) -/
  halted : Bool
  /-- `FAULT` (R35) -/
  fault  : Option FaultRecord
  /-- MODEL'S OWN (log entry 8): how many `Rand8` draws the session has taken -/
  draws  : Nat
  deriving DecidableEq, Repr

/-- Why a step stops with a fault: never. Every unrecoverable condition of the spec is one of the six
fatal causes, and the spec describes what each leaves behind (60_exceptions.md R250, R253, R254), so the
model takes it as a next state (log entry 10). -/
inductive Fault where
  deriving DecidableEq, Repr

/-- Why an operation is refused. -/
inductive Refusal where
  /-- Raised by a rejected arm of `exec` for an instruction without a meaning; no arm is one. Safe. -/
  | notModelled (mnemonic : String)
  /-- Raised by `construct` for a program of `len` bytes that does not fit: no session is created
  (70_reset_and_hazards.md R282). Safe. -/
  | programTooLarge (len : Nat)
  /-- Raised by `SetKey` for an argument that is neither none nor 0x0..0xF: the operation is not
  admitted (43_keys_timers.md R200). Safe. -/
  | setKeyArgument (k : Nat)
  deriving DecidableEq, Repr

/-- The state after construction (10_state.md R39; 70_reset_and_hazards.md R280), of a session with an
empty program. DESIGN CHOICE, unsafe: `QUIRK` is 0 (log entry 7) and `INIT_FILL` is 0x00 (log entry 6).
PRESUMED, unsafe: `FONT` is the default table (log entry 5). DESIGN CHOICE, safe: `draws` is 0 (log
entry 8). -/
def State.reset : State where
  v      := .replicate 16 0x00#8
  i      := 0x0000#16
  pc     := 0x0200#16
  sp     := none
  stack  := .replicate 16 0x0000#16
  dt     := 0x00#8
  st     := 0x00#8
  key    := none
  fb     := .replicate 32 0#64
  mem    := []
  quirk  := false
  halted := false
  fault  := none
  draws  := 0

end Sys2Proof.Machine
end

