-- ==== Sys2Proof/Machine/Ops.lean ====
section
/-! DEFINITION. The shared operations: memory, registers, program counter, call stack, framebuffer unit,
fetch, and taking a fatal condition. -/

namespace Sys2Proof.Machine

/-! ## Memory (20_memory.md) -/

/-- `MEM_SIZE` (00_scope.md R8; 20_memory.md R50; 90_conflicts.md C1; log entry 14): the first address not
present. -/
def memSize : Nat := 4095

/-- The first address above the font region 0x000..0x04F (20_memory.md R55). -/
def fontSize : Nat := 0x50

/-- `PROG_BASE`, where a program is loaded (20_memory.md R55). -/
def progBase : Nat := 0x200

/-- Glyphs 0 to 7 of the default font (20_memory.md R56). -/
def fontLow : List Byte :=
  [0xF0, 0x90, 0x90, 0x90, 0xF0] ++ [0x20, 0x60, 0x20, 0x20, 0x70] ++
  [0xF0, 0x10, 0xF0, 0x80, 0xF0] ++ [0xF0, 0x10, 0xF0, 0x10, 0xF0] ++
  [0x90, 0x90, 0xF0, 0x10, 0x10] ++ [0xF0, 0x80, 0xF0, 0x10, 0xF0] ++
  [0xF0, 0x80, 0xF0, 0x90, 0xF0] ++ [0xF0, 0x10, 0x20, 0x40, 0x40]

/-- Glyphs 8 to F of the default font (20_memory.md R56). -/
def fontHigh : List Byte :=
  [0xF0, 0x90, 0xF0, 0x90, 0xF0] ++ [0xF0, 0x90, 0xF0, 0x10, 0xF0] ++
  [0xF0, 0x90, 0xF0, 0x90, 0x90] ++ [0xE0, 0x90, 0xE0, 0x90, 0xE0] ++
  [0xF0, 0x80, 0x80, 0x80, 0xF0] ++ [0xE0, 0x90, 0x90, 0x90, 0xE0] ++
  [0xF0, 0x80, 0xF0, 0x80, 0xF0] ++ [0xF0, 0x80, 0xF0, 0x80, 0x80]

/-- PRESUMED (log entry 5), unsafe where the implementation's font differs: the default of `FONT`, which
the spec supplies from general knowledge (20_memory.md R56; 92_eei_decisions.md D3). -/
def defaultFont : List Byte := fontLow ++ fontHigh

/-- What an address the memory does not list reads as: the default font byte in 0x000..0x04F, else 0x00
(DESIGN CHOICE, log entry 6: only `State.reset` rests on it, since a memory can list any content). -/
def Memory.blank (a : Nat) : Byte := defaultFont.getD a 0x00#8

/-- The byte `MEM[a]`, in bounds or not: the bounds check is `memRead`'s. -/
def Memory.read : Memory → Nat → Byte
  | [], a => Memory.blank a
  | c :: m, a => if a = c.1 then c.2 else Memory.read m a

/-- `MEM[a] <- v` on the canonical form: the list stays sorted, and a byte equal to what an unlisted
address reads as is not listed. The checks are `memWrite`'s. -/
def Memory.write : Memory → Nat → Byte → Memory
  | [], a, v => if v = Memory.blank a then [] else [(a, v)]
  | c :: m, a, v =>
    if a < c.1 then (if v = Memory.blank a then c :: m else (a, v) :: c :: m)
    else if a = c.1 then (if v = Memory.blank a then m else (a, v) :: m)
    else c :: Memory.write m a v

/-- The canonical form: addresses strictly rising, each present, and no byte equal to what an unlisted
address reads as. -/
abbrev Memory.wf (m : Memory) : Prop :=
  m.Pairwise (fun c d => c.1 < d.1) ∧ ∀ c ∈ m, c.1 < memSize ∧ c.2 ≠ Memory.blank c.1

/-- The canonical memory whose byte at each present address `a` is `f a`. (Irreducible, so that no proof
lists its 4095 addresses by accident.) -/
@[irreducible] def Memory.tabulate (f : Nat → Byte) : Memory :=
  (List.range memSize).filterMap fun a => if f a = Memory.blank a then none else some (a, f a)

/-- `MemRead(a, 1)` (20_memory.md R52). -/
def memRead (m : Memory) (a : Nat) : Except Raised Byte :=
  if memSize ≤ a then .error ⟨.memBounds, some a⟩ else .ok (m.read a)

/-- `MemWrite(a, 1, v)` (20_memory.md R53). -/
def memWrite (m : Memory) (a : Nat) (v : Byte) : Except Raised Memory :=
  if memSize ≤ a then .error ⟨.memBounds, some a⟩
  else if a < fontSize then .error ⟨.fontWrite, some a⟩
  else .ok (m.write a v)

/-- `n` reads at `a, a+1, ...` in ascending order; the first fatal ends them (20_memory.md R58;
60_exceptions.md R252). -/
def loadBytes (m : Memory) : Nat → Nat → Except Raised (List Byte)
  | _, 0 => .ok []
  | a, n + 1 =>
    match memRead m a with
    | .error r => .error r
    | .ok b =>
      match loadBytes m (a + 1) n with
      | .error r => .error r
      | .ok bs => .ok (b :: bs)

/-- Writes of the listed bytes at `a, a+1, ...` in ascending order; the first fatal ends them
(20_memory.md R58; 60_exceptions.md R252). -/
def storeBytes (m : Memory) : Nat → List Byte → Except Raised Memory
  | _, [] => .ok m
  | a, b :: bs =>
    match memWrite m a b with
    | .error r => .error r
    | .ok m' => storeBytes m' (a + 1) bs

/-! ## Registers (10_state.md R21 to R23) -/

/-- `V[x]`. -/
def State.getV (s : State) (x : Nibble) : Byte := s.v[x.toNat]'x.isLt

/-- `V[x] <- b`. -/
def State.setV (s : State) (x : Nibble) (b : Byte) : State := { s with v := s.v.set x.toNat b x.isLt }

/-- `V[k], V[k+1], ... <- bs` (44_memory_transfer.md R234). -/
def writeRegs (v : Vector Byte 16) : Nat → List Byte → Vector Byte 16
  | _, [] => v
  | k, b :: bs => writeRegs (v.setIfInBounds k b) (k + 1) bs

/-- `V0..Vx` in ascending order (44_memory_transfer.md R232). -/
def State.firstRegs (s : State) (x : Nibble) : List Byte := s.v.toList.take (x.toNat + 1)

/-- `I <- w` (10_state.md R24). -/
def State.setI (s : State) (w : Word) : State := { s with i := w }

/-! ## Program counter (40_control_flow.md R100 to R102) -/

/-- `PC <- target`. -/
def State.jump (s : State) (target : Word) : State := { s with pc := target }

/-- The fetch's advance, `PC <- (a + 2) mod 2^16` (40_control_flow.md R100). -/
def State.advance (s : State) : State := s.jump (s.pc + 2#16)

/-- A skip applied to the advanced `PC` (40_control_flow.md R102). -/
def State.skipIf (s : State) (taken : Bool) : State := if taken then s.jump (s.pc + 2#16) else s

/-- The rewind of `FX0A`, `PC <- (PC - 2) mod 2^16` (43_keys_timers.md R207). -/
def State.rewind (s : State) : State := s.jump (s.pc - 2#16)

/-! ## Call stack (10_state.md R26, R27) -/

/-- `SP` as the integer −1..15 (10_state.md R26). -/
def State.spInt (s : State) : Int :=
  match s.sp with
  | none => -1
  | some j => (j.val : Int)

/-- `SP` as a 5-bit two's-complement register (10_state.md R27). -/
def State.spField (s : State) : BitVec 5 :=
  match s.sp with
  | none => 0b11111#5
  | some j => BitVec.ofNat 5 j.val

/-- `SP + 1`, or none when `SP = 15` (10_state.md R26, R27). -/
def spPush : Option (Fin 16) → Option (Fin 16)
  | none => some 0
  | some j => if h : j.val + 1 < 16 then some ⟨j.val + 1, h⟩ else none

/-- `SP - 1` of a non-empty stack (10_state.md R26). -/
def spPop (j : Fin 16) : Option (Fin 16) :=
  if h : 0 < j.val then some ⟨j.val - 1, by omega⟩ else none

/-- The push of `2NNN` and the jump: `SP <- SP + 1; STACK[SP] <- PC; PC <- target` (40_control_flow.md
R106). -/
def callTo (target : Word) (s : State) : Except Raised State :=
  match spPush s.sp with
  | none => .error ⟨.stackOverflow, none⟩
  | some k => .ok { s with sp := some k, stack := s.stack.set k.val s.pc, pc := target }

/-- The pop of `00EE`: `PC <- STACK[SP]; SP <- SP - 1`; the entry keeps its value (40_control_flow.md
R103). -/
def returnFromCall (s : State) : Except Raised State :=
  match s.sp with
  | none => .error ⟨.stackUnderflow, none⟩
  | some j => .ok { s with pc := s.stack[j.val], sp := spPop j }

/-! ## Framebuffer unit (42_display.md R170 to R175) -/

/-- `FB[k]` of the row-major array (10_state.md R31). -/
def fbGet (fb : Framebuffer) (k : Nat) : Bool := (fb[k / 64]?.getD 0#64).getLsbD (k % 64)

/-- `FbXor(px, py, b)`: the new framebuffer and `collided` (42_display.md R170). -/
def fbXor (fb : Framebuffer) (px py : Nat) (b : Bool) : Framebuffer × Bool :=
  let k := px + py * 64
  let flip : BitVec 64 := if b then BitVec.twoPow 64 (k % 64) else 0#64
  (fb.setIfInBounds (k / 64) (fb[k / 64]?.getD 0#64 ^^^ flip), fbGet fb k && b)

/-- `FbClear()` (42_display.md R171). -/
def fbClear : Framebuffer := .replicate 32 0#64

/-- Pixel `c` of a row byte: bit 7 is column 0 (42_display.md R174; log entry 11). -/
def spritePixel (row : Byte) (c : Nat) : Bool := row.getLsbD (7 - c)

/-- Columns `c` to 7 of one sprite row at `(x0 + c, py)`, clipped at column 64, with the collision so far
(42_display.md R175); `left` counts the columns still to draw. -/
def drawColumns (x0 py : Nat) (row : Byte) : Nat → Nat → Framebuffer × Bool → Framebuffer × Bool
  | _, 0, d => d
  | c, left + 1, d =>
    drawColumns x0 py row (c + 1) left
      (if 64 ≤ x0 + c then d
       else
        let r := fbXor d.1 (x0 + c) py (spritePixel row c)
        (r.1, d.2 || r.2))

/-- The rows of a sprite from screen row `py` down, clipped at row 32 (42_display.md R175). -/
def drawRows (x0 : Nat) : Nat → List Byte → Framebuffer × Bool → Framebuffer × Bool
  | _, [], d => d
  | py, row :: rows, d =>
    drawRows x0 (py + 1) rows (if 32 ≤ py then d else drawColumns x0 py row 0 8 d)

/-! ## Fetch (40_control_flow.md R100) -/

/-- The opcode at `PC`, or the fatal of the first byte out of range (40_control_flow.md R100;
60_exceptions.md R257). -/
def fetch (s : State) : Except Raised Word :=
  match memRead s.mem s.pc.toNat with
  | .error r => .error r
  | .ok hi =>
    match memRead s.mem (s.pc.toNat + 1) with
    | .error r => .error r
    | .ok lo => .ok (opcodeOf hi lo)

/-! ## Taking a fatal condition (60_exceptions.md R252 to R254)

There is no return from one: a halted block executes nothing more (R255, R258). -/

/-- The numeric code of a cause (60_exceptions.md R250). -/
def FatalCause.code : FatalCause → Nat
  | .legacyCall => 1
  | .illegalOpcode => 2
  | .memBounds => 3
  | .stackOverflow => 4
  | .stackUnderflow => 5
  | .fontWrite => 6

/-- A fatal taken in the state `s` the cycle began in: every other component keeps its value, `HALTED`
becomes 1 and `FAULT` records the cause, the instruction's address, the opcode (none on a fetch fault)
and the address (60_exceptions.md R253, R254). -/
def takeFatal (op : Option Word) (r : Raised) (s : State) : State :=
  { s with halted := true, fault := some { cause := r.cause, pc := s.pc, opcode := op, addr := r.addr } }

/-- The end of a cycle that began in `s` with the fetched word `op`: the instruction's result, or the
fatal it raised, which discards every write of the cycle (60_exceptions.md R252, R253). -/
def commit (op : Word) (s : State) : Except Raised State → Host.Outcome State Fault Refusal
  | .ok t => .next t
  | .error r => .next (takeFatal (some op) r s)

/-- The fatal of a word that decodes to no instruction (30_encoding.md R76, R79). -/
def decodeFatal (op : Word) : DecodeError → Option Word × Raised
  | .illegalOpcode _ => (some op, ⟨.illegalOpcode, none⟩)

/-! ## Placing a word to run (log entry 12) -/

/-- `s` with the table word stored where the next fetch reads it: at `PC`, or at 0x200 with `PC` moved
there when two bytes do not fit at `PC`; and not halted, since a halted block fetches nothing. -/
def placeWord (nbits w : Nat) (s : State) : State :=
  let op := tableWord nbits w
  let pc : Word := if s.pc.toNat + 1 < memSize then s.pc else 0x200#16
  { s with
    pc := pc
    mem := (s.mem.write pc.toNat (highByte op)).write (pc.toNat + 1) (lowByte op)
    halted := false
    fault := none }

end Sys2Proof.Machine
end

