-- ==== Sys2Proof/Machine/Flags.lean ====
section
/-! DEFINITION. The flag computations (41_register_alu.md R133) and the one way a flag is written: after
the result, into `VF` (10_state.md R23). -/

namespace Sys2Proof.Machine

/-- Carry of `8XY4`: the sum exceeds 255 (41_register_alu.md R140). -/
def carryOut (a b : Byte) : Bool := decide (255 < a.toNat + b.toNat)

/-- No borrow of `a - b`: `a ≥ b` (41_register_alu.md R141, R142). -/
def noBorrow (a b : Byte) : Bool := decide (b.toNat ≤ a.toNat)

/-- The bit `8XY6` shifts out: `src & 1` (41_register_alu.md R146). -/
def lowBit (src : Byte) : Bool := src.getLsbD 0

/-- The bit `8XYE` shifts out: `(src >> 7) & 1` (41_register_alu.md R148). -/
def highBit (src : Byte) : Bool := src.getLsbD 7

/-- A flag as the byte `VF` receives, 0 or 1. -/
def flagByte (f : Bool) : Byte := if f then 0x01#8 else 0x00#8

/-- `V[F] <- f`. -/
def State.setFlag (s : State) (f : Bool) : State := s.setV 0xF#4 (flagByte f)

/-- `V[x] <- result; V[F] <- flag`, in that order (10_state.md R23). -/
def State.setResultFlag (s : State) (x : Nibble) (result : Byte) (flag : Bool) : State :=
  (s.setV x result).setFlag flag

end Sys2Proof.Machine
end

