-- ==== Sys2Proof/Machine/Operands.lean ====
section
/-! DEFINITION. The operand forms beyond a plain register or immediate: zero-extended fields, the shift
source, the key comparison, the glyph address, the decimal digits and the sprite origin. -/

namespace Sys2Proof.Machine

/-- `zext_16(NNN)` (30_encoding.md R73). -/
def zextAddr (nnn : Addr) : Word := nnn.setWidth 16

/-- `(NNN + V0) mod 2^16`, the target of `BNNN`, not masked to 12 bits (40_control_flow.md R109). -/
def jumpV0Target (nnn : Addr) (s : State) : Word := zextAddr nnn + (s.getV 0x0#4).setWidth 16

/-- The shift source: `Vx` when `QUIRK = 1`, `Vy` when `QUIRK = 0` (41_register_alu.md R146, R148). -/
def shiftSource (x y : Nibble) (s : State) : Byte := if s.quirk then s.getV x else s.getV y

/-- `KeyIs(v)`: `KEY ≠ none` and `KEY = v` (43_keys_timers.md R202). -/
def keyIs (s : State) (b : Byte) : Bool :=
  match s.key with
  | none => false
  | some k => k.setWidth 8 == b

/-- `KEY` as a 5-bit register: bit 4 is 1 for none, else bits 3:0 are the key (10_state.md R30). DESIGN CHOICE
(log entry 18), unsafe: bits 3:0 are 0 for none, where the spec gives them no value. -/
def State.keyField (s : State) : BitVec 5 :=
  match s.key with
  | none => 0b10000#5
  | some k => k.setWidth 5

/-- `Vx * 5`, not masked (41_register_alu.md R162). -/
def glyphAddress (b : Byte) : Word := BitVec.ofNat 16 (b.toNat * 5)

/-- Hundreds, tens and ones of a byte (44_memory_transfer.md R230, R231). -/
def decimalDigits (b : Byte) : List Byte :=
  [BitVec.ofNat 8 (b.toNat / 100), BitVec.ofNat 8 (b.toNat / 10 % 10), BitVec.ofNat 8 (b.toNat % 10)]

/-- The sprite's left column, `Vx mod 64` (42_display.md R174). -/
def spriteColumn (vx : Byte) : Nat := vx.toNat % 64

/-- The sprite's top row, `Vy mod 32` (42_display.md R174). -/
def spriteRow (vy : Byte) : Nat := vy.toNat % 32

end Sys2Proof.Machine
end

