-- ==== Sys2Proof/Machine/Alu.lean ====
section
/-! DEFINITION. Register loads, the ALU group, the index register and the random byte
(41_register_alu.md). Operands are read from `s`, the state at the start of the cycle, so no later write
changes one (00_scope.md R14). -/

namespace Sys2Proof.Machine

/-- `6XKK` LD Vx, byte (41_register_alu.md R130). -/
def execLdImm (x : Nibble) (kk : Byte) (s : State) : Host.Outcome State Fault Refusal :=
  .next (s.advance.setV x kk)

/-- `7XKK` ADD Vx, byte: no flag (41_register_alu.md R131). -/
def execAddImm (x : Nibble) (kk : Byte) (s : State) : Host.Outcome State Fault Refusal :=
  .next (s.advance.setV x (s.getV x + kk))

/-- `8XY0` LD Vx, Vy (41_register_alu.md R135). -/
def execLdReg (x y : Nibble) (s : State) : Host.Outcome State Fault Refusal :=
  .next (s.advance.setV x (s.getV y))

/-- `8XY1` OR Vx, Vy: `VF` not cleared (41_register_alu.md R136). -/
def execOrReg (x y : Nibble) (s : State) : Host.Outcome State Fault Refusal :=
  .next (s.advance.setV x (s.getV x ||| s.getV y))

/-- `8XY2` AND Vx, Vy (41_register_alu.md R137). -/
def execAndReg (x y : Nibble) (s : State) : Host.Outcome State Fault Refusal :=
  .next (s.advance.setV x (s.getV x &&& s.getV y))

/-- `8XY3` XOR Vx, Vy (41_register_alu.md R138). -/
def execXorReg (x y : Nibble) (s : State) : Host.Outcome State Fault Refusal :=
  .next (s.advance.setV x (s.getV x ^^^ s.getV y))

/-- `8XY4` ADD Vx, Vy (41_register_alu.md R140). -/
def execAddReg (x y : Nibble) (s : State) : Host.Outcome State Fault Refusal :=
  .next (s.advance.setResultFlag x (s.getV x + s.getV y) (carryOut (s.getV x) (s.getV y)))

/-- `8XY5` SUB Vx, Vy (41_register_alu.md R141). -/
def execSubReg (x y : Nibble) (s : State) : Host.Outcome State Fault Refusal :=
  .next (s.advance.setResultFlag x (s.getV x - s.getV y) (noBorrow (s.getV x) (s.getV y)))

/-- `8XY7` SUBN Vx, Vy (41_register_alu.md R142). -/
def execSubnReg (x y : Nibble) (s : State) : Host.Outcome State Fault Refusal :=
  .next (s.advance.setResultFlag x (s.getV y - s.getV x) (noBorrow (s.getV y) (s.getV x)))

/-- `8XY6` SHR Vx, Vy (41_register_alu.md R146). -/
def execShr (x y : Nibble) (s : State) : Host.Outcome State Fault Refusal :=
  .next (s.advance.setResultFlag x (shiftSource x y s >>> 1) (lowBit (shiftSource x y s)))

/-- `8XYE` SHL Vx, Vy (41_register_alu.md R148). -/
def execShl (x y : Nibble) (s : State) : Host.Outcome State Fault Refusal :=
  .next (s.advance.setResultFlag x (shiftSource x y s <<< 1) (highBit (shiftSource x y s)))

/-- `ANNN` LD I, addr (41_register_alu.md R150). -/
def execLdI (nnn : Addr) (s : State) : Host.Outcome State Fault Refusal :=
  .next (s.advance.setI (zextAddr nnn))

/-- `CXKK` RND Vx, byte: a fresh draw, masked (41_register_alu.md R153; log entry 8). -/
def execRnd (x : Nibble) (kk : Byte) (s : State) : Host.Outcome State Fault Refusal :=
  .next { s.advance.setV x (Config.rand8 s.draws &&& kk) with draws := s.draws + 1 }

/-- `FX1E` ADD I, Vx: modulo 2^16, no flag (41_register_alu.md R160). -/
def execAddIVx (x : Nibble) (s : State) : Host.Outcome State Fault Refusal :=
  .next (s.advance.setI (s.i + (s.getV x).setWidth 16))

/-- `FX29` LD F, Vx (41_register_alu.md R162). -/
def execLdFVx (x : Nibble) (s : State) : Host.Outcome State Fault Refusal :=
  .next (s.advance.setI (glyphAddress (s.getV x)))

end Sys2Proof.Machine
end

