-- ==== Sys2Proof/Machine/Control.lean ====
section
/-! DEFINITION. The control-flow instructions (40_control_flow.md). In every meaning `s` is the state at
the start of the cycle, with `PC` the instruction's address; `s.advance` is the state the rule's
pseudocode starts from (log entry 13). -/

namespace Sys2Proof.Machine

/-- `00EE` RET (40_control_flow.md R103). -/
def execRet (s : State) : Host.Outcome State Fault Refusal :=
  commit (encode .ret) s (returnFromCall s.advance)

/-- `0NNN` SYS: always the fatal `LEGACY_CALL` (40_control_flow.md R104). -/
def execSys (nnn : Addr) (s : State) : Host.Outcome State Fault Refusal :=
  commit (encode (.sys nnn)) s (.error ⟨.legacyCall, none⟩)

/-- `1NNN` JP addr (40_control_flow.md R105). -/
def execJp (nnn : Addr) (s : State) : Host.Outcome State Fault Refusal :=
  .next (s.advance.jump (zextAddr nnn))

/-- `2NNN` CALL addr (40_control_flow.md R106): it pushes the advanced `PC`. -/
def execCall (nnn : Addr) (s : State) : Host.Outcome State Fault Refusal :=
  commit (encode (.call nnn)) s (callTo (zextAddr nnn) s.advance)

/-- `BNNN` JP V0, addr (40_control_flow.md R109). -/
def execJpV0 (nnn : Addr) (s : State) : Host.Outcome State Fault Refusal :=
  .next (s.advance.jump (jumpV0Target nnn s))

/-- `3XKK` SE Vx, byte (40_control_flow.md R110). -/
def execSeImm (x : Nibble) (kk : Byte) (s : State) : Host.Outcome State Fault Refusal :=
  .next (s.advance.skipIf (s.getV x == kk))

/-- `4XKK` SNE Vx, byte (40_control_flow.md R111). -/
def execSneImm (x : Nibble) (kk : Byte) (s : State) : Host.Outcome State Fault Refusal :=
  .next (s.advance.skipIf (s.getV x != kk))

/-- `5XY0` SE Vx, Vy (40_control_flow.md R112). -/
def execSeReg (x y : Nibble) (s : State) : Host.Outcome State Fault Refusal :=
  .next (s.advance.skipIf (s.getV x == s.getV y))

/-- `9XY0` SNE Vx, Vy (40_control_flow.md R113). -/
def execSneReg (x y : Nibble) (s : State) : Host.Outcome State Fault Refusal :=
  .next (s.advance.skipIf (s.getV x != s.getV y))

end Sys2Proof.Machine
end

