-- ==== Sys2Proof/Machine/Display.lean ====
section
/-! DEFINITION. The display instructions (42_display.md). -/

namespace Sys2Proof.Machine

/-- `00E0` CLS (42_display.md R173). -/
def execCls (s : State) : Host.Outcome State Fault Refusal :=
  .next { s.advance with fb := fbClear }

/-- The draw of `DXYN` with the coordinates and the row count given: all rows are read first, then the
pixels change, then `VF` is written (42_display.md R175). -/
def drawSprite (vx vy : Byte) (n : Nat) (s : State) : Except Raised State :=
  match loadBytes s.mem s.i.toNat n with
  | .error r => .error r
  | .ok rows =>
    let d := drawRows (spriteColumn vx) (spriteRow vy) rows (s.fb, false)
    .ok (State.setFlag { s with fb := d.1 } d.2)

/-- `DXYN` DRW Vx, Vy, nibble (42_display.md R175). -/
def execDrw (x y n : Nibble) (s : State) : Host.Outcome State Fault Refusal :=
  commit (encode (.drw x y n)) s (drawSprite (s.getV x) (s.getV y) n.toNat s.advance)

end Sys2Proof.Machine
end

