-- ==== Sys2Proof/Machine/KeysTimers.lean ====
section
/-! DEFINITION. The key and timer instructions (43_keys_timers.md). -/

namespace Sys2Proof.Machine

/-- `EX9E` SKP Vx (43_keys_timers.md R203). -/
def execSkp (x : Nibble) (s : State) : Host.Outcome State Fault Refusal :=
  .next (s.advance.skipIf (keyIs s (s.getV x)))

/-- `EXA1` SKNP Vx (43_keys_timers.md R204). -/
def execSknp (x : Nibble) (s : State) : Host.Outcome State Fault Refusal :=
  .next (s.advance.skipIf (!keyIs s (s.getV x)))

/-- `FX07` LD Vx, DT (43_keys_timers.md R206). -/
def execLdVxDt (x : Nibble) (s : State) : Host.Outcome State Fault Refusal :=
  .next (s.advance.setV x s.dt)

/-- `FX0A` LD Vx, K: with no key the `PC` is rewound, so that the next cycle runs the same word again
(43_keys_timers.md R207, R205); the latch is not cleared. -/
def execLdVxK (x : Nibble) (s : State) : Host.Outcome State Fault Refusal :=
  match s.key with
  | none => .next s.advance.rewind
  | some k => .next (s.advance.setV x (k.setWidth 8))

/-- `FX15` LD DT, Vx (43_keys_timers.md R208). -/
def execLdDtVx (x : Nibble) (s : State) : Host.Outcome State Fault Refusal :=
  .next { s.advance with dt := s.getV x }

/-- `FX18` LD ST, Vx (43_keys_timers.md R209). -/
def execLdStVx (x : Nibble) (s : State) : Host.Outcome State Fault Refusal :=
  .next { s.advance with st := s.getV x }

end Sys2Proof.Machine
end

