-- ==== Sys2Proof/Machine/Transfer.lean ====
section
/-! DEFINITION. The memory transfer instructions (44_memory_transfer.md). None changes `I` (R235). -/

namespace Sys2Proof.Machine

/-- Stores the listed bytes from `I` up (44_memory_transfer.md R230, R232). -/
def storeAtI (bs : List Byte) (s : State) : Except Raised State :=
  match storeBytes s.mem s.i.toNat bs with
  | .error r => .error r
  | .ok m => .ok { s with mem := m }

/-- Loads `V0..Vx` from `I` up (44_memory_transfer.md R234). -/
def loadFromI (x : Nibble) (s : State) : Except Raised State :=
  match loadBytes s.mem s.i.toNat (x.toNat + 1) with
  | .error r => .error r
  | .ok bs => .ok { s with v := writeRegs s.v 0 bs }

/-- `FX33` LD B, Vx (44_memory_transfer.md R230). -/
def execLdBVx (x : Nibble) (s : State) : Host.Outcome State Fault Refusal :=
  commit (encode (.ldBVx x)) s (storeAtI (decimalDigits (s.getV x)) s.advance)

/-- `FX55` LD [I], Vx (44_memory_transfer.md R232). -/
def execLdMemVx (x : Nibble) (s : State) : Host.Outcome State Fault Refusal :=
  commit (encode (.ldMemVx x)) s (storeAtI (s.firstRegs x) s.advance)

/-- `FX65` LD Vx, [I] (44_memory_transfer.md R234). -/
def execLdVxMem (x : Nibble) (s : State) : Host.Outcome State Fault Refusal :=
  commit (encode (.ldVxMem x)) s (loadFromI x s.advance)

end Sys2Proof.Machine
end

