-- ==== Sys2Proof/Machine/Step.lean ====
section
/-! DEFINITION. One step is one `Cycle` (40_control_flow.md R100); the other host operations stand in
Machine/HostOps.lean (log entry 9). -/

namespace Sys2Proof.Machine

/-- `Cycle`: nothing on a halted block (60_exceptions.md R255); else fetch, decode and execute, in the
priority of R257. -/
def step (s : State) : Host.Outcome State Fault Refusal :=
  if s.halted then .next s
  else
    match fetch s with
    | .error r => .next (takeFatal none r s)
    | .ok op =>
      match decode op with
      | .error e => .next (takeFatal (decodeFatal op e).1 (decodeFatal op e).2 s)
      | .ok i => exec i s

/-- `s` with the table word stored where `step` fetches next (log entry 12). -/
def State.withFetchWord (s : State) (nbits w : Nat) : State := placeWord nbits w s

end Sys2Proof.Machine
end

