-- ==== Sys2Proof/Machine/HostOps.lean ====
section
/-! DEFINITION. The host interface (60_exceptions.md R269): construction, the operations on a running
session, and a session under a host schedule. -/

namespace Sys2Proof.Machine

/-! ## Construction (70_reset_and_hazards.md R280, R282) -/

/-- The content of memory after construction: `INIT_FILL`, over it the font, over it the program
(70_reset_and_hazards.md R280; 10_state.md R39). -/
def constructByte (program : List Byte) (font : Vector Byte 80) (initFill : Nat → Byte) (a : Nat) : Byte :=
  if h : a < 80 then font[a]
  else if progBase ≤ a then program.getD (a - progBase) (initFill a)
  else initFill a

/-- `Construct(PROGRAM, QUIRK, FONT)` with the draw `INIT_FILL`: a new session, refused when the program
does not fit (70_reset_and_hazards.md R280, R282). -/
def construct (program : List Byte) (quirk : Bool) (font : Vector Byte 80) (initFill : Nat → Byte) :
    Host.Outcome State Fault Refusal :=
  if memSize < progBase + program.length then .refused (.programTooLarge program.length)
  else
    .next { State.reset with
      mem := Memory.tabulate (constructByte program font initFill)
      quirk := quirk }

/-! ## Operations on a session (60_exceptions.md R269) -/

/-- `TickTimers` (43_keys_timers.md R212). -/
def tickTimers (s : State) : State :=
  if s.halted then s
  else
    { s with
      dt := if 0#8 < s.dt then s.dt - 1#8 else s.dt
      st := if 0#8 < s.st then s.st - 1#8 else s.st }

/-- `SetKey(k)`: none is a release; an argument above 0xF is not admitted (43_keys_timers.md R200). It is
admitted on a halted block (60_exceptions.md R255). -/
def setKey (k : Option Nat) (s : State) : Host.Outcome State Fault Refusal :=
  match k with
  | none => .next { s with key := none }
  | some n => if n < 16 then .next { s with key := some (BitVec.ofNat 4 n) } else .refused (.setKeyArgument n)

/-- The host operations on a running session (60_exceptions.md R269). -/
inductive HostOp where
  | cycle
  | tickTimers
  | setKey (k : Option Nat)
  | readFramebuffer
  | snapshot
  | readStatus
  deriving DecidableEq, Repr

/-- What `Snapshot` returns (60_exceptions.md R271). -/
structure SnapshotData where
  v     : Vector Byte 16
  stack : Vector Word 16
  sp    : Int
  pc    : Word
  i     : Word
  deriving DecidableEq, Repr

/-- What a host operation returns (60_exceptions.md R269). -/
inductive HostResult where
  | noResult
  | pixels (bits : List Bool)
  | registers (d : SnapshotData)
  | status (halted : Bool) (fault : Option FaultRecord)
  deriving DecidableEq, Repr

/-- `ReadFramebuffer`: the 2048 bits, row-major (60_exceptions.md R270). -/
def readFramebuffer (s : State) : List Bool := (List.range 2048).map (fbGet s.fb)

/-- `Snapshot` (60_exceptions.md R271). -/
def snapshot (s : State) : SnapshotData := { v := s.v, stack := s.stack, sp := s.spInt, pc := s.pc, i := s.i }

/-- The state after a host operation. -/
def hostStep (op : HostOp) (s : State) : Host.Outcome State Fault Refusal :=
  match op with
  | .cycle => step s
  | .tickTimers => .next (tickTimers s)
  | .setKey k => setKey k s
  | .readFramebuffer => .next s
  | .snapshot => .next s
  | .readStatus => .next s

/-- The result of a host operation; only the three reads return one (60_exceptions.md R269 to R272). -/
def hostResult (op : HostOp) (s : State) : HostResult :=
  match op with
  | .cycle => .noResult
  | .tickTimers => .noResult
  | .setKey _ => .noResult
  | .readFramebuffer => .pixels (readFramebuffer s)
  | .snapshot => .registers (snapshot s)
  | .readStatus => .status s.halted s.fault

/-- A session under a host schedule, from the state `s` (60_exceptions.md R274; 92_eei_decisions.md D24);
an operation that is not admitted ends it. -/
def runSession : List HostOp → State → Host.Outcome State Fault Refusal
  | [], s => .next s
  | op :: ops, s =>
    match hostStep op s with
    | .next t => runSession ops t
    | .fault r => .fault r
    | .refused r => .refused r

end Sys2Proof.Machine
end

