-- ==== Sys2Proof/Safety.lean ====
section
/-! DEFINITION. The terms claims use: the components of a state and which of them an operation may
change, the state a fatal condition leaves, the picture a sprite draws, and the invariant of a
session. -/

namespace Sys2Proof.Machine

/-! ## Decoding -/

/-- The 16-bit word with the number `w` decodes to `i`. -/
def Decodes (w : Nat) (i : Instr) : Prop := decode (BitVec.ofNat 16 w) = .ok i

/-! ## Frames -/

/-- The components of the state tuple (10_state.md R20), memory and framebuffer cell by cell, and the
model's own draw counter. -/
inductive Component where
  | v (x : Nibble)
  | i
  | pc
  | sp
  | stack (j : Fin 16)
  | dt
  | st
  | key
  | pixel (k : Nat)
  | mem (a : Nat)
  | quirk
  | halted
  | fault
  | draws
  deriving DecidableEq, Repr

/-- The component reads in `t` as it reads in `s`. -/
def Unchanged (s t : State) : Component → Prop
  | .v x => t.getV x = s.getV x
  | .i => t.i = s.i
  | .pc => t.pc = s.pc
  | .sp => t.sp = s.sp
  | .stack j => t.stack[j.val] = s.stack[j.val]
  | .dt => t.dt = s.dt
  | .st => t.st = s.st
  | .key => t.key = s.key
  | .pixel k => fbGet t.fb k = fbGet s.fb k
  | .mem a => t.mem.read a = s.mem.read a
  | .quirk => t.quirk = s.quirk
  | .halted => t.halted = s.halted
  | .fault => t.fault = s.fault
  | .draws => t.draws = s.draws

/-- Every component reads in `t` as in `s`, except possibly those of which `changed` holds. -/
def OnlyChanges (changed : Component → Prop) (s t : State) : Prop := ∀ c, ¬ changed c → Unchanged s t c

/-- The components an instruction without a fatal may write (the access summary, 10_state.md R37, with
the bytes `FX33` and `FX55` store to, 20_memory.md R51). -/
def MayWrite (s : State) : Instr → Component → Prop
  | .cls, c => c = .pc ∨ ∃ k, c = .pixel k
  | .ret, c => c = .pc ∨ c = .sp
  | .sys _, _ => False
  | .jp _, c => c = .pc
  | .call _, c => c = .pc ∨ c = .sp ∨ ∃ j : Fin 16, c = .stack j ∧ (j.val : Int) = s.spInt + 1
  | .seImm _ _, c => c = .pc
  | .sneImm _ _, c => c = .pc
  | .seReg _ _, c => c = .pc
  | .ldImm x _, c => c = .pc ∨ c = .v x
  | .addImm x _, c => c = .pc ∨ c = .v x
  | .ldReg x _, c => c = .pc ∨ c = .v x
  | .orReg x _, c => c = .pc ∨ c = .v x
  | .andReg x _, c => c = .pc ∨ c = .v x
  | .xorReg x _, c => c = .pc ∨ c = .v x
  | .addReg x _, c => c = .pc ∨ c = .v x ∨ c = .v 0xF#4
  | .subReg x _, c => c = .pc ∨ c = .v x ∨ c = .v 0xF#4
  | .shr x _, c => c = .pc ∨ c = .v x ∨ c = .v 0xF#4
  | .subnReg x _, c => c = .pc ∨ c = .v x ∨ c = .v 0xF#4
  | .shl x _, c => c = .pc ∨ c = .v x ∨ c = .v 0xF#4
  | .sneReg _ _, c => c = .pc
  | .ldI _, c => c = .pc ∨ c = .i
  | .jpV0 _, c => c = .pc
  | .rnd x _, c => c = .pc ∨ c = .v x ∨ c = .draws
  | .drw _ _ _, c => c = .pc ∨ c = .v 0xF#4 ∨ ∃ k, c = .pixel k
  | .skp _, c => c = .pc
  | .sknp _, c => c = .pc
  | .ldVxDt x, c => c = .pc ∨ c = .v x
  | .ldVxK x, c => c = .pc ∨ c = .v x
  | .ldDtVx _, c => c = .pc ∨ c = .dt
  | .ldStVx _, c => c = .pc ∨ c = .st
  | .addIVx _, c => c = .pc ∨ c = .i
  | .ldFVx _, c => c = .pc ∨ c = .i
  | .ldBVx _, c => c = .pc ∨ ∃ k, k < 3 ∧ c = .mem (s.i.toNat + k)
  | .ldMemVx x, c => c = .pc ∨ ∃ k, k ≤ x.toNat ∧ c = .mem (s.i.toNat + k)
  | .ldVxMem x, c => c = .pc ∨ ∃ y : Nibble, y.toNat ≤ x.toNat ∧ c = .v y

/-! ## Fatal conditions -/

/-- What a fatal of a cycle that began in `s` leaves: `s` with `HALTED` and `FAULT` written, and nothing
else (60_exceptions.md R253, R254). -/
def haltedWith (s : State) (cause : FatalCause) (opcode : Option Word) (addr : Option Nat) : State :=
  { s with halted := true, fault := some { cause := cause, pc := s.pc, opcode := opcode, addr := addr } }

/-- A run is faulted iff `HALTED = 1` at its end (60_exceptions.md R274). -/
def Faulted (s : State) : Prop := s.halted = true

/-- Only memory and font faults record an address, and it is one that cannot be accessed so
(60_exceptions.md R250). -/
def AddressMatchesCause (f : FaultRecord) : Prop :=
  match f.cause with
  | .memBounds => ∃ a, f.addr = some a ∧ 4095 ≤ a
  | .fontWrite => ∃ a, f.addr = some a ∧ a ≤ 0x04F
  | .legacyCall => f.addr = none
  | .illegalOpcode => f.addr = none
  | .stackOverflow => f.addr = none
  | .stackUnderflow => f.addr = none

/-- The fatal of reading `first`, `first + 1`, ..., `last`: `MEM_BOUNDS` of the first of them that is not
present (20_memory.md R52; 60_exceptions.md R250, R257). -/
def readFatal (first last : Nat) : Option Raised :=
  if last < 4095 then none else some ⟨.memBounds, some (max first 4095)⟩

/-- The fatal of writing `first`, `first + 1`, ..., `last`: `FONT_WRITE` of `first` when it lies in the font,
else as for a read (20_memory.md R53; 60_exceptions.md R250, R257). -/
def writeFatal (first last : Nat) : Option Raised :=
  if first ≤ 0x04F then some ⟨.fontWrite, some first⟩ else readFatal first last

/-- The fatal the instruction raises in `s`, with the address recorded, or none: the conditions of the table
of 60_exceptions.md R250, as the instruction rules give them. -/
def fatalOf : Instr → State → Option Raised
  | .cls, _ => none
  | .ret, s => if s.spInt = -1 then some ⟨.stackUnderflow, none⟩ else none
  | .sys _, _ => some ⟨.legacyCall, none⟩
  | .jp _, _ => none
  | .call _, s => if s.spInt = 15 then some ⟨.stackOverflow, none⟩ else none
  | .seImm _ _, _ => none
  | .sneImm _ _, _ => none
  | .seReg _ _, _ => none
  | .ldImm _ _, _ => none
  | .addImm _ _, _ => none
  | .ldReg _ _, _ => none
  | .orReg _ _, _ => none
  | .andReg _ _, _ => none
  | .xorReg _ _, _ => none
  | .addReg _ _, _ => none
  | .subReg _ _, _ => none
  | .shr _ _, _ => none
  | .subnReg _ _, _ => none
  | .shl _ _, _ => none
  | .sneReg _ _, _ => none
  | .ldI _, _ => none
  | .jpV0 _, _ => none
  | .rnd _ _, _ => none
  | .drw _ _ n, s => if n.toNat = 0 then none else readFatal s.i.toNat (s.i.toNat + n.toNat - 1)
  | .skp _, _ => none
  | .sknp _, _ => none
  | .ldVxDt _, _ => none
  | .ldVxK _, _ => none
  | .ldDtVx _, _ => none
  | .ldStVx _, _ => none
  | .addIVx _, _ => none
  | .ldFVx _, _ => none
  | .ldBVx _, s => writeFatal s.i.toNat (s.i.toNat + 2)
  | .ldMemVx x, s => writeFatal s.i.toNat (s.i.toNat + x.toNat)
  | .ldVxMem x, s => readFatal s.i.toNat (s.i.toNat + x.toNat)

/-! ## Sprites -/

/-- Screen pixel `(px, py)` is covered by a set pixel of the `n`-row sprite at `I` whose top-left corner
is `(vx mod 64, vy mod 32)` (42_display.md R174). -/
def spriteCovers (s : State) (vx vy : Byte) (n : Nat) (px py : Nat) : Bool :=
  decide (vx.toNat % 64 ≤ px ∧ px < vx.toNat % 64 + 8 ∧ vy.toNat % 32 ≤ py ∧ py < vy.toNat % 32 + n) &&
    (s.mem.read (s.i.toNat + (py - vy.toNat % 32))).getLsbD (7 - (px - vx.toNat % 64))

/-! ## The invariant of a session -/

/-- What holds in every state of a session: the memory is in canonical form, the block is halted exactly
when a fault is recorded, and the record is one a fatal at the current `PC` leaves. -/
structure Inv (s : State) : Prop where
  /-- the canonical form of `MEM` (the model's representation of 10_state.md R32) -/
  memCanonical : s.mem.wf
  /-- `FAULT` is written once, together with `HALTED` (10_state.md R34, R35) -/
  haltedIffFault : s.halted = true ↔ s.fault.isSome = true
  /-- the record holds the `PC` of the faulting instruction, where the halted block stays
  (60_exceptions.md R253 to R255) -/
  faultPc : ∀ f, s.fault = some f → f.pc = s.pc
  /-- a fault without an opcode is a fetch fault (60_exceptions.md R254) -/
  faultOpcode : ∀ f, s.fault = some f → f.opcode = none → f.cause = .memBounds
  /-- the recorded address fits the cause (60_exceptions.md R250) -/
  faultAddr : ∀ f, s.fault = some f → AddressMatchesCause f

end Sys2Proof.Machine
end

