-- ==== Sys2Proof/Certificates/Slice0/Obligations.lean ====
section
/-! DEFINITION. The statements about the model, each with the rule of spec/ it formalises. A fatal
condition is a next state (log entry 10), and `exec i s` is the rest of the cycle that began in `s`, with
`s.pc` the address of `i` (log entry 13). -/

open Sys2Proof Sys2Proof.Machine

/-! ## Encoding (30_encoding.md) -/

/-- Words written out from the spec's opcode map decode to the instructions they stand for, and illegal
words are rejected (30_encoding.md R75, R77, R79). -/
def Obligations.DecodeReadsSpecWords : Prop :=
  decode 0x00E0#16 = .ok .cls ∧ decode 0x00EE#16 = .ok .ret ∧ decode 0x0123#16 = .ok (.sys 0x123#12) ∧
  decode 0x1205#16 = .ok (.jp 0x205#12) ∧ decode 0x2206#16 = .ok (.call 0x206#12) ∧
  decode 0x3510#16 = .ok (.seImm 5#4 0x10#8) ∧ decode 0x5120#16 = .ok (.seReg 1#4 2#4) ∧
  decode 0x7009#16 = .ok (.addImm 0#4 0x09#8) ∧ decode 0x850E#16 = .ok (.shl 5#4 0#4) ∧
  decode 0xA300#16 = .ok (.ldI 0x300#12) ∧ decode 0xC30F#16 = .ok (.rnd 3#4 0x0F#8) ∧
  decode 0xD015#16 = .ok (.drw 0#4 1#4 5#4) ∧ decode 0xE1A1#16 = .ok (.sknp 1#4) ∧
  decode 0xF265#16 = .ok (.ldVxMem 2#4) ∧
  decode 0x5121#16 = .error (.illegalOpcode 0x5121#16) ∧ decode 0x8128#16 = .error (.illegalOpcode 0x8128#16) ∧
  decode 0xE1A2#16 = .error (.illegalOpcode 0xE1A2#16) ∧ decode 0xF1FF#16 = .error (.illegalOpcode 0xF1FF#16)

/-- Decode and encode agree on every well-formed instruction, with every operand at every value
(30_encoding.md R72, R73, R75, R77). -/
def Obligations.DecodeOfEncodeIsIdentity : Prop :=
  ∀ i : Instr, i.wellFormed = true → decode (encode i) = .ok i

/-- Every word has one meaning: a word that decodes to `i` is the word of `i`, `i` is well-formed, and the
word lies in the row of the opcode map that `i` stands for (30_encoding.md R74, R77). -/
def Obligations.DecodedInstructionEncodesBack : Prop :=
  ∀ (op : Word) (i : Instr), decode op = .ok i →
    i.wellFormed = true ∧ encode i = op ∧ op &&& (opcodeRow i).1 = (opcodeRow i).2

/-- The legacy-call words are the words of family 0 other than `00E0` and `00EE` (30_encoding.md R78). -/
def Obligations.LegacyCallWords : Prop :=
  ∀ op : Word, (∃ nnn, decode op = .ok (.sys nnn)) ↔ op.toNat / 4096 = 0x0 ∧ op ≠ 0x00E0#16 ∧ op ≠ 0x00EE#16

/-- The words the decoder rejects are exactly the illegal encodings, each rejected with the word itself
(30_encoding.md R74, R79). -/
def Obligations.IllegalOpcodeWords : Prop :=
  ∀ op : Word,
    (∀ e, decode op = .error e → e = .illegalOpcode op) ∧
    ((∃ e, decode op = .error e) ↔
      (op.toNat / 4096 = 0x5 ∧ op.toNat % 16 ≠ 0) ∨
      (op.toNat / 4096 = 0x8 ∧ op.toNat % 16 ∈ [0x8, 0x9, 0xA, 0xB, 0xC, 0xD, 0xF]) ∨
      (op.toNat / 4096 = 0x9 ∧ op.toNat % 16 ≠ 0) ∨
      (op.toNat / 4096 = 0xE ∧ op.toNat % 256 ∉ [0x9E, 0xA1]) ∨
      (op.toNat / 4096 = 0xF ∧
        op.toNat % 256 ∉ [0x07, 0x0A, 0x15, 0x18, 0x1E, 0x29, 0x33, 0x55, 0x65]))

/-- A decode verdict of legacy call or illegal opcode is taken as the fatal with the opcode and the
instruction's address, and executes nothing (30_encoding.md R76). -/
def Obligations.DecodeFatalIsTaken : Prop :=
  ∀ (s : State) (op : Word), s.halted = false → fetch s = .ok op →
    (∀ nnn, decode op = .ok (.sys nnn) → step s = .next (haltedWith s .legacyCall (some op) none)) ∧
    (∀ e, decode op = .error e → step s = .next (haltedWith s .illegalOpcode (some op) none))

/-! ## The cycle (40_control_flow.md R100) -/

/-- When the big-endian word at `PC` decodes to `i`, a step is `exec i` (40_control_flow.md R100; 20_memory.md
R57). The advance of `PC` is part of `exec` (log entry 13). -/
def Obligations.StepRunsDecodedInstruction : Prop :=
  ∀ (s : State) (i : Instr), s.halted = false → s.pc.toNat + 1 < 4095 →
    Decodes ((s.mem.read s.pc.toNat).toNat * 256 + (s.mem.read (s.pc.toNat + 1)).toNat) i →
    step s = exec i s

/-- A fetch past the end of memory is the fatal `MEM_BOUNDS` of the first byte that is not present, with no
opcode (40_control_flow.md R100; 60_exceptions.md R254, R257). -/
def Obligations.FetchOutOfRangeHalts : Prop :=
  ∀ s : State, s.halted = false →
    (4095 ≤ s.pc.toNat → step s = .next (haltedWith s .memBounds none (some s.pc.toNat))) ∧
    (s.pc.toNat = 4094 → step s = .next (haltedWith s .memBounds none (some 4095)))

/-- The halt (60_exceptions.md R255): on a halted block `Cycle` and `TickTimers` change nothing, `SetKey`
still writes `KEY`, the reads still answer; every schedule leaves it halted with its first fault; and a
new construction gives a running core (the spec's decision D11). -/
def Obligations.HaltedBlockStaysHalted : Prop :=
  (∀ s : State, s.halted = true →
    hostStep .cycle s = .next s ∧ hostStep .tickTimers s = .next s ∧
    hostStep (.setKey none) s = .next { s with key := none } ∧
    (∀ k, k < 16 → hostStep (.setKey (some k)) s = .next { s with key := some (BitVec.ofNat 4 k) }) ∧
    hostResult .readFramebuffer s = .pixels (readFramebuffer s) ∧
    hostResult .snapshot s = .registers (snapshot s) ∧
    hostResult .readStatus s = .status true s.fault ∧
    (∀ ops t, runSession ops s = .next t → t.halted = true ∧ t.fault = s.fault)) ∧
  (∀ program quirk font fill s, construct program quirk font fill = .next s → s.halted = false)

/-- No step and no instruction stops the model: each answers a next state, a fatal condition included
(60_exceptions.md R250, R258; log entry 10). -/
def Obligations.EveryStepAnswersNext : Prop :=
  (∀ s, ∃ t, step s = .next t) ∧ ∀ i s, ∃ t, exec i s = .next t

/-- A table word placed for the fetch is the instruction the next step runs (the model's loading
convention, log entry 12). -/
def Obligations.PlacedWordRunsNext : Prop :=
  ∀ (s : State) (w : Nat) (i : Instr), s.mem.wf → w < 65536 → Decodes w i →
    (s.withFetchWord 16 w).halted = false ∧
    fetch (s.withFetchWord 16 w) = .ok (BitVec.ofNat 16 w) ∧
    step (s.withFetchWord 16 w) = exec i (s.withFetchWord 16 w)

/-- Fatals are precise (60_exceptions.md R253, R254; the spec's decision D10): a cycle that halts leaves every
component but `HALTED` and `FAULT` as it was, and the record is exact: the instruction's address; on a fetch
fault no opcode and the first address that is not present; else the fetched word, with `ILLEGAL_OPCODE` and no
address for an illegal word, and the instruction's own cause and address for any other (R250, R257). -/
def Obligations.FatalsArePrecise : Prop :=
  ∀ s t : State, s.halted = false → step s = .next t → t.halted = true →
    ∃ f, t = { s with halted := true, fault := some f } ∧ f.pc = s.pc ∧
      (∀ r, fetch s = .error r → f.opcode = none ∧ f.cause = .memBounds ∧ f.addr = some (max s.pc.toNat 4095)) ∧
      (∀ op, fetch s = .ok op → f.opcode = some op ∧
        (∀ e, decode op = .error e → f.cause = .illegalOpcode ∧ f.addr = none) ∧
        (∀ i, decode op = .ok i → fatalOf i s = some ⟨f.cause, f.addr⟩))

/-! ## Control flow (40_control_flow.md) -/

/-- RET (40_control_flow.md R103); the empty stack is fatal by the spec's decision D9. -/
def Obligations.ReturnPopsTheStack : Prop :=
  Decodes 0x00EE .ret ∧ ∀ s : State,
    (s.sp = none → exec .ret s = .next (haltedWith s .stackUnderflow (some 0x00EE#16) none)) ∧
    (∀ j, s.sp = some j → ∃ t, exec .ret s = .next t ∧ t.pc = s.stack[j.val] ∧ t.spInt = s.spInt - 1 ∧
      OnlyChanges (fun c => c = .pc ∨ c = .sp) s t)

/-- SYS (40_control_flow.md R104): always the fatal `LEGACY_CALL`, no other state changes. -/
def Obligations.LegacyCallHalts : Prop :=
  ∀ (nnn : Addr) (s : State), (nnn ≠ 0x0E0#12 → nnn ≠ 0x0EE#12 → Decodes nnn.toNat (.sys nnn)) ∧
    exec (.sys nnn) s = .next (haltedWith s .legacyCall (some (BitVec.ofNat 16 nnn.toNat)) none)

/-- JP addr (40_control_flow.md R105): no fault in this cycle, and a target of 0xFFE or above faults at the
next fetch. -/
def Obligations.JumpSetsPc : Prop :=
  ∀ (nnn : Addr) (s : State), Decodes (0x1000 + nnn.toNat) (.jp nnn) ∧
    ∃ t, exec (.jp nnn) s = .next t ∧ t.pc.toNat = nnn.toNat ∧ OnlyChanges (fun c => c = .pc) s t ∧
      (s.halted = false → 0xFFE ≤ nnn.toNat →
        step t = .next (haltedWith t .memBounds none (some (max nnn.toNat 4095))))

/-- CALL addr (40_control_flow.md R106); the full stack is fatal by the spec's decision D9. -/
def Obligations.CallPushesReturnAddress : Prop :=
  ∀ (nnn : Addr) (s : State), Decodes (0x2000 + nnn.toNat) (.call nnn) ∧
    (s.spInt = 15 → exec (.call nnn) s =
      .next (haltedWith s .stackOverflow (some (BitVec.ofNat 16 (0x2000 + nnn.toNat))) none)) ∧
    (s.spInt ≠ 15 → ∃ t, ∃ k : Fin 16, exec (.call nnn) s = .next t ∧ t.sp = some k ∧
      (k.val : Int) = s.spInt + 1 ∧ t.stack[k.val] = s.pc + 2#16 ∧ t.pc.toNat = nnn.toNat ∧
      OnlyChanges (fun c => c = .pc ∨ c = .sp ∨ c = .stack k) s t)

/-- JP V0, addr (40_control_flow.md R109): the sum is not masked to 12 bits (the spec's decision D8), and a
target of 0xFFE or above faults at the next fetch. -/
def Obligations.JumpV0AddsUnmasked : Prop :=
  ∀ (nnn : Addr) (s : State), Decodes (0xB000 + nnn.toNat) (.jpV0 nnn) ∧
    ∃ t, exec (.jpV0 nnn) s = .next t ∧ t.pc.toNat = nnn.toNat + (s.getV 0#4).toNat ∧
      OnlyChanges (fun c => c = .pc) s t ∧
      (s.halted = false → 0xFFE ≤ nnn.toNat + (s.getV 0#4).toNat →
        step t = .next (haltedWith t .memBounds none (some (max (nnn.toNat + (s.getV 0#4).toNat) 4095))))

/-- SE and SNE with an immediate (40_control_flow.md R110, R111). -/
def Obligations.ImmediateSkips : Prop :=
  ∀ (x : Nibble) (kk : Byte) (s : State),
    Decodes (0x3000 + x.toNat * 256 + kk.toNat) (.seImm x kk) ∧
    Decodes (0x4000 + x.toNat * 256 + kk.toNat) (.sneImm x kk) ∧
    (∃ t, exec (.seImm x kk) s = .next t ∧ t.pc = (if s.getV x = kk then s.pc + 4#16 else s.pc + 2#16) ∧
      OnlyChanges (fun c => c = .pc) s t) ∧
    (∃ t, exec (.sneImm x kk) s = .next t ∧ t.pc = (if s.getV x ≠ kk then s.pc + 4#16 else s.pc + 2#16) ∧
      OnlyChanges (fun c => c = .pc) s t)

/-- SE and SNE with a register (40_control_flow.md R112, R113); the words with a low nibble other than 0
are illegal. -/
def Obligations.RegisterSkips : Prop :=
  ∀ (x y : Nibble) (s : State),
    Decodes (0x5000 + x.toNat * 256 + y.toNat * 16) (.seReg x y) ∧
    Decodes (0x9000 + x.toNat * 256 + y.toNat * 16) (.sneReg x y) ∧
    (∀ n, 0 < n → n < 16 →
      decode (BitVec.ofNat 16 (0x5000 + x.toNat * 256 + y.toNat * 16 + n)) =
        .error (.illegalOpcode (BitVec.ofNat 16 (0x5000 + x.toNat * 256 + y.toNat * 16 + n))) ∧
      decode (BitVec.ofNat 16 (0x9000 + x.toNat * 256 + y.toNat * 16 + n)) =
        .error (.illegalOpcode (BitVec.ofNat 16 (0x9000 + x.toNat * 256 + y.toNat * 16 + n)))) ∧
    (∃ t, exec (.seReg x y) s = .next t ∧
      t.pc = (if s.getV x = s.getV y then s.pc + 4#16 else s.pc + 2#16) ∧
      OnlyChanges (fun c => c = .pc) s t) ∧
    (∃ t, exec (.sneReg x y) s = .next t ∧
      t.pc = (if s.getV x ≠ s.getV y then s.pc + 4#16 else s.pc + 2#16) ∧
      OnlyChanges (fun c => c = .pc) s t)

/-- A call whose subroutine keeps the stack returns to the address after the call, with the stack pointer
as before the call (40_control_flow.md R103, R106). -/
def Obligations.CallThenReturnRestores : Prop :=
  ∀ (nnn : Addr) (s : State), s.spInt ≠ 15 →
    ∃ t, exec (.call nnn) s = .next t ∧
      ∀ u : State, u.sp = t.sp → u.stack = t.stack →
        ∃ w, exec .ret u = .next w ∧ w.pc = s.pc + 2#16 ∧ w.spInt = s.spInt

/-! ## Register loads and ALU (41_register_alu.md) -/

/-- LD and ADD with an immediate (41_register_alu.md R130, R131): the sum wraps and sets no flag. -/
def Obligations.ImmediateLoadsAndAdds : Prop :=
  ∀ (x : Nibble) (kk : Byte) (s : State),
    Decodes (0x6000 + x.toNat * 256 + kk.toNat) (.ldImm x kk) ∧
    Decodes (0x7000 + x.toNat * 256 + kk.toNat) (.addImm x kk) ∧
    (∃ t, exec (.ldImm x kk) s = .next t ∧ t.getV x = kk ∧ t.pc = s.pc + 2#16 ∧
      OnlyChanges (fun c => c = .pc ∨ c = .v x) s t) ∧
    (∃ t, exec (.addImm x kk) s = .next t ∧ (t.getV x).toNat = ((s.getV x).toNat + kk.toNat) % 256 ∧
      t.pc = s.pc + 2#16 ∧ OnlyChanges (fun c => c = .pc ∨ c = .v x) s t)

/-- LD, OR, AND and XOR of registers, bit by bit; no flag is written (41_register_alu.md R135 to R138). -/
def Obligations.MovesAndLogic : Prop :=
  ∀ (x y : Nibble) (s : State),
    Decodes (0x8000 + x.toNat * 256 + y.toNat * 16) (.ldReg x y) ∧
    Decodes (0x8001 + x.toNat * 256 + y.toNat * 16) (.orReg x y) ∧
    Decodes (0x8002 + x.toNat * 256 + y.toNat * 16) (.andReg x y) ∧
    Decodes (0x8003 + x.toNat * 256 + y.toNat * 16) (.xorReg x y) ∧
    (∃ t, exec (.ldReg x y) s = .next t ∧ t.getV x = s.getV y ∧ t.pc = s.pc + 2#16 ∧
      OnlyChanges (fun c => c = .pc ∨ c = .v x) s t) ∧
    (∃ t, exec (.orReg x y) s = .next t ∧ t.pc = s.pc + 2#16 ∧
      (∀ b, (t.getV x).getLsbD b = ((s.getV x).getLsbD b || (s.getV y).getLsbD b)) ∧
      OnlyChanges (fun c => c = .pc ∨ c = .v x) s t) ∧
    (∃ t, exec (.andReg x y) s = .next t ∧ t.pc = s.pc + 2#16 ∧
      (∀ b, (t.getV x).getLsbD b = ((s.getV x).getLsbD b && (s.getV y).getLsbD b)) ∧
      OnlyChanges (fun c => c = .pc ∨ c = .v x) s t) ∧
    (∃ t, exec (.xorReg x y) s = .next t ∧ t.pc = s.pc + 2#16 ∧
      (∀ b, (t.getV x).getLsbD b = ((s.getV x).getLsbD b ^^ (s.getV y).getLsbD b)) ∧
      OnlyChanges (fun c => c = .pc ∨ c = .v x) s t)

/-- ADD Vx, Vy (41_register_alu.md R140): the wrapped sum, and the carry in `VF`, written last. -/
def Obligations.AddWithCarry : Prop :=
  ∀ (x y : Nibble) (s : State),
    Decodes (0x8004 + x.toNat * 256 + y.toNat * 16) (.addReg x y) ∧
    ∃ t, exec (.addReg x y) s = .next t ∧
      (x ≠ 0xF#4 → (t.getV x).toNat = ((s.getV x).toNat + (s.getV y).toNat) % 256) ∧
      t.getV 0xF#4 = (if (s.getV x).toNat + (s.getV y).toNat > 255 then 1#8 else 0#8) ∧
      t.pc = s.pc + 2#16 ∧ OnlyChanges (fun c => c = .pc ∨ c = .v x ∨ c = .v 0xF#4) s t

/-- SUB and SUBN (41_register_alu.md R141, R142): the wrapped difference, and no borrow in `VF`, written
last. -/
def Obligations.SubtractWithNoBorrow : Prop :=
  ∀ (x y : Nibble) (s : State),
    Decodes (0x8005 + x.toNat * 256 + y.toNat * 16) (.subReg x y) ∧
    Decodes (0x8007 + x.toNat * 256 + y.toNat * 16) (.subnReg x y) ∧
    (∃ t, exec (.subReg x y) s = .next t ∧
      (x ≠ 0xF#4 → ((t.getV x).toNat : Int) = ((s.getV x).toNat - (s.getV y).toNat : Int) % 256) ∧
      t.getV 0xF#4 = (if (s.getV x).toNat ≥ (s.getV y).toNat then 1#8 else 0#8) ∧
      t.pc = s.pc + 2#16 ∧ OnlyChanges (fun c => c = .pc ∨ c = .v x ∨ c = .v 0xF#4) s t) ∧
    (∃ t, exec (.subnReg x y) s = .next t ∧
      (x ≠ 0xF#4 → ((t.getV x).toNat : Int) = ((s.getV y).toNat - (s.getV x).toNat : Int) % 256) ∧
      t.getV 0xF#4 = (if (s.getV y).toNat ≥ (s.getV x).toNat then 1#8 else 0#8) ∧
      t.pc = s.pc + 2#16 ∧ OnlyChanges (fun c => c = .pc ∨ c = .v x ∨ c = .v 0xF#4) s t)

/-- SHR (41_register_alu.md R146): the source is `Vx` or `Vy` as `QUIRK` says; the bit shifted out goes to
`VF`, last. -/
def Obligations.ShiftRightUnderQuirk : Prop :=
  ∀ (x y : Nibble) (s : State) (src : Nat),
    src = (if s.quirk = true then (s.getV x).toNat else (s.getV y).toNat) →
    Decodes (0x8006 + x.toNat * 256 + y.toNat * 16) (.shr x y) ∧
    ∃ t, exec (.shr x y) s = .next t ∧
      (x ≠ 0xF#4 → (t.getV x).toNat = src / 2) ∧ (t.getV 0xF#4).toNat = src % 2 ∧
      t.pc = s.pc + 2#16 ∧ OnlyChanges (fun c => c = .pc ∨ c = .v x ∨ c = .v 0xF#4) s t

/-- SHL (41_register_alu.md R148). -/
def Obligations.ShiftLeftUnderQuirk : Prop :=
  ∀ (x y : Nibble) (s : State) (src : Nat),
    src = (if s.quirk = true then (s.getV x).toNat else (s.getV y).toNat) →
    Decodes (0x800E + x.toNat * 256 + y.toNat * 16) (.shl x y) ∧
    ∃ t, exec (.shl x y) s = .next t ∧
      (x ≠ 0xF#4 → (t.getV x).toNat = src * 2 % 256) ∧ (t.getV 0xF#4).toNat = src / 128 ∧
      t.pc = s.pc + 2#16 ∧ OnlyChanges (fun c => c = .pc ∨ c = .v x ∨ c = .v 0xF#4) s t

/-- LD I, ADD I and LD F (41_register_alu.md R150, R160, R162): no flag, no 12-bit wrap, no mask (the
spec's decision D7). -/
def Obligations.IndexRegisterWrites : Prop :=
  ∀ (x : Nibble) (nnn : Addr) (s : State),
    Decodes (0xA000 + nnn.toNat) (.ldI nnn) ∧ Decodes (0xF01E + x.toNat * 256) (.addIVx x) ∧
    Decodes (0xF029 + x.toNat * 256) (.ldFVx x) ∧
    (∃ t, exec (.ldI nnn) s = .next t ∧ t.i.toNat = nnn.toNat ∧ t.pc = s.pc + 2#16 ∧
      OnlyChanges (fun c => c = .pc ∨ c = .i) s t) ∧
    (∃ t, exec (.addIVx x) s = .next t ∧ t.i.toNat = (s.i.toNat + (s.getV x).toNat) % 65536 ∧
      t.pc = s.pc + 2#16 ∧ OnlyChanges (fun c => c = .pc ∨ c = .i) s t) ∧
    (∃ t, exec (.ldFVx x) s = .next t ∧ t.i.toNat = (s.getV x).toNat * 5 ∧
      t.pc = s.pc + 2#16 ∧ OnlyChanges (fun c => c = .pc ∨ c = .i) s t)

/-- RND (41_register_alu.md R153): one fresh draw, masked; the draw is the free value of log entry 8, and the
statement holds whatever it is. -/
def Obligations.RandomByteIsMasked : Prop :=
  ∀ (x : Nibble) (kk : Byte) (s : State),
    Decodes (0xC000 + x.toNat * 256 + kk.toNat) (.rnd x kk) ∧
    ∃ t, exec (.rnd x kk) s = .next t ∧ t.getV x = Config.rand8 s.draws &&& kk ∧
      t.draws = s.draws + 1 ∧ (∀ b, kk.getLsbD b = false → (t.getV x).getLsbD b = false) ∧
      t.pc = s.pc + 2#16 ∧ OnlyChanges (fun c => c = .pc ∨ c = .v x ∨ c = .draws) s t

/-! ## Display (42_display.md) -/

/-- CLS (42_display.md R171, R173): every pixel is 0 after it, `VF` and all else as before. -/
def Obligations.ClearScreen : Prop :=
  Decodes 0x00E0 .cls ∧ ∀ s : State,
    ∃ t, exec .cls s = .next t ∧ (∀ k, fbGet t.fb k = false) ∧ t.pc = s.pc + 2#16 ∧
      OnlyChanges (fun c => c = .pc ∨ ∃ k, k < 2048 ∧ c = .pixel k) s t

/-- DRW (42_display.md R174, R175): the on-screen pixels the sprite covers are toggled, the others stay;
`VF` is 1 iff a covered on-screen pixel was lit; a row byte past the end of memory is the fatal
`MEM_BOUNDS` of the first such address, whether or not the row is clipped. Bit 7 of a row byte is the
leftmost pixel: the spec's decision D14, from general knowledge (log entry 11). -/
def Obligations.DrawTogglesSprite : Prop :=
  ∀ (x y n : Nibble) (s : State),
    Decodes (0xD000 + x.toNat * 256 + y.toNat * 16 + n.toNat) (.drw x y n) ∧
    (n.toNat = 0 ∨ s.i.toNat + n.toNat ≤ 4095 →
      ∃ t, exec (.drw x y n) s = .next t ∧
        (∀ px py, px < 64 → py < 32 → fbGet t.fb (px + py * 64) =
          (fbGet s.fb (px + py * 64) ^^ spriteCovers s (s.getV x) (s.getV y) n.toNat px py)) ∧
        (t.getV 0xF#4 = 0#8 ∨ t.getV 0xF#4 = 1#8) ∧
        (t.getV 0xF#4 = 1#8 ↔ ∃ px py, px < 64 ∧ py < 32 ∧ fbGet s.fb (px + py * 64) = true ∧
          spriteCovers s (s.getV x) (s.getV y) n.toNat px py = true) ∧
        t.pc = s.pc + 2#16 ∧
        OnlyChanges (fun c => c = .pc ∨ c = .v 0xF#4 ∨ ∃ k, k < 2048 ∧ c = .pixel k) s t) ∧
    (n.toNat ≠ 0 → 4095 < s.i.toNat + n.toNat →
      exec (.drw x y n) s = .next (haltedWith s .memBounds
        (some (BitVec.ofNat 16 (0xD000 + x.toNat * 256 + y.toNat * 16 + n.toNat)))
        (some (max s.i.toNat 4095))))

/-- The laws of draw (42_display.md R176): the same sprite drawn twice restores the framebuffer, the second
draw's `VF` is 1 iff the first left a covered on-screen pixel lit, and a draw onto a clear framebuffer
leaves `VF = 0`. The covered pixels (R174) have bit 7 of a row leftmost: the spec's decision D14, from
general knowledge (log entry 11). -/
def Obligations.DrawTwiceRestores : Prop :=
  ∀ (x y n : Nibble) (s : State), n.toNat = 0 ∨ s.i.toNat + n.toNat ≤ 4095 →
    (x ≠ 0xF#4 → y ≠ 0xF#4 →
      ∃ t u, exec (.drw x y n) s = .next t ∧ exec (.drw x y n) t = .next u ∧
        (∀ k, fbGet u.fb k = fbGet s.fb k) ∧
        (u.getV 0xF#4 = 1#8 ↔ ∃ px py, px < 64 ∧ py < 32 ∧ fbGet t.fb (px + py * 64) = true ∧
          spriteCovers s (s.getV x) (s.getV y) n.toNat px py = true)) ∧
    ((∀ k, fbGet s.fb k = false) → ∃ t, exec (.drw x y n) s = .next t ∧ t.getV 0xF#4 = 0#8)

/-! ## Keys and timers (43_keys_timers.md) -/

/-- SKP and SKNP (43_keys_timers.md R202 to R204): no key matches no `Vx`, and a `Vx` of 16 or more matches no
key. -/
def Obligations.KeySkips : Prop :=
  ∀ (x : Nibble) (s : State),
    Decodes (0xE09E + x.toNat * 256) (.skp x) ∧ Decodes (0xE0A1 + x.toNat * 256) (.sknp x) ∧
    (∃ t, exec (.skp x) s = .next t ∧
      (∀ k, s.key = some k → k.toNat = (s.getV x).toNat → t.pc = s.pc + 4#16) ∧
      ((∀ k, s.key = some k → k.toNat ≠ (s.getV x).toNat) → t.pc = s.pc + 2#16) ∧
      OnlyChanges (fun c => c = .pc) s t) ∧
    (∃ t, exec (.sknp x) s = .next t ∧
      (∀ k, s.key = some k → k.toNat = (s.getV x).toNat → t.pc = s.pc + 2#16) ∧
      ((∀ k, s.key = some k → k.toNat ≠ (s.getV x).toNat) → t.pc = s.pc + 4#16) ∧
      OnlyChanges (fun c => c = .pc) s t)

/-- LD Vx, K (43_keys_timers.md R207): with no key nothing changes at all, with a key it is taken and the
latch is not cleared. -/
def Obligations.KeyWait : Prop :=
  ∀ (x : Nibble) (s : State), Decodes (0xF00A + x.toNat * 256) (.ldVxK x) ∧
    (s.key = none → exec (.ldVxK x) s = .next s) ∧
    (∀ k, s.key = some k → ∃ t, exec (.ldVxK x) s = .next t ∧ (t.getV x).toNat = k.toNat ∧
      t.pc = s.pc + 2#16 ∧ OnlyChanges (fun c => c = .pc ∨ c = .v x) s t)

/-- LD Vx, DT; LD DT, Vx; LD ST, Vx (43_keys_timers.md R206, R208, R209). -/
def Obligations.TimerInstructions : Prop :=
  ∀ (x : Nibble) (s : State),
    Decodes (0xF007 + x.toNat * 256) (.ldVxDt x) ∧ Decodes (0xF015 + x.toNat * 256) (.ldDtVx x) ∧
    Decodes (0xF018 + x.toNat * 256) (.ldStVx x) ∧
    (∃ t, exec (.ldVxDt x) s = .next t ∧ t.getV x = s.dt ∧ t.pc = s.pc + 2#16 ∧
      OnlyChanges (fun c => c = .pc ∨ c = .v x) s t) ∧
    (∃ t, exec (.ldDtVx x) s = .next t ∧ t.dt = s.getV x ∧ t.pc = s.pc + 2#16 ∧
      OnlyChanges (fun c => c = .pc ∨ c = .dt) s t) ∧
    (∃ t, exec (.ldStVx x) s = .next t ∧ t.st = s.getV x ∧ t.pc = s.pc + 2#16 ∧
      OnlyChanges (fun c => c = .pc ∨ c = .st) s t)

/-- `TickTimers` (43_keys_timers.md R212): each timer falls by 1, floored at 0; nothing else changes, and
nothing at all on a halted block. -/
def Obligations.TickFloorsAtZero : Prop :=
  ∀ s : State,
    (s.halted = true → hostStep .tickTimers s = .next s) ∧
    (s.halted = false → ∃ t, hostStep .tickTimers s = .next t ∧ t.dt.toNat = s.dt.toNat - 1 ∧
      t.st.toNat = s.st.toNat - 1 ∧ OnlyChanges (fun c => c = .dt ∨ c = .st) s t)

/-- `SetKey` (43_keys_timers.md R200): none or 0x0..0xF is written to `KEY` and nothing else changes, halted or
not; any other argument is refused (the spec's decision D18). -/
def Obligations.SetKeyWritesTheLatch : Prop :=
  ∀ s : State,
    (∃ t, hostStep (.setKey none) s = .next t ∧ t.key = none ∧ OnlyChanges (fun c => c = .key) s t) ∧
    (∀ k : Nat, k < 16 → ∃ t, hostStep (.setKey (some k)) s = .next t ∧
      (∃ q, t.key = some q ∧ q.toNat = k) ∧ OnlyChanges (fun c => c = .key) s t) ∧
    (∀ k : Nat, 16 ≤ k → hostStep (.setKey (some k)) s = .refused (.setKeyArgument k))

/-! ## Memory transfer (44_memory_transfer.md) -/

/-- LD B, Vx (44_memory_transfer.md R230). The premise on the stored bytes is the canonical form of the
memory, which every session keeps (`InvariantKeptByEveryStep`). -/
def Obligations.DecimalStore : Prop :=
  ∀ (x : Nibble) (s : State), Decodes (0xF033 + x.toNat * 256) (.ldBVx x) ∧
    (0x050 ≤ s.i.toNat → s.i.toNat + 2 < 4095 → ∃ t, exec (.ldBVx x) s = .next t ∧
      t.pc = s.pc + 2#16 ∧
      OnlyChanges (fun c => c = .pc ∨ ∃ k, k < 3 ∧ c = .mem (s.i.toNat + k)) s t ∧
      (s.mem.wf → (t.mem.read s.i.toNat).toNat = (s.getV x).toNat / 100 ∧
        (t.mem.read (s.i.toNat + 1)).toNat = (s.getV x).toNat / 10 % 10 ∧
        (t.mem.read (s.i.toNat + 2)).toNat = (s.getV x).toNat % 10)) ∧
    (s.i.toNat ≤ 0x04F → exec (.ldBVx x) s = .next (haltedWith s .fontWrite
      (some (BitVec.ofNat 16 (0xF033 + x.toNat * 256))) (some s.i.toNat))) ∧
    (4095 ≤ s.i.toNat + 2 → exec (.ldBVx x) s = .next (haltedWith s .memBounds
      (some (BitVec.ofNat 16 (0xF033 + x.toNat * 256))) (some (max s.i.toNat 4095))))

/-- LD [I], Vx (44_memory_transfer.md R232, R235): `I` is not changed (the spec's decision
D13); a store into the font is fatal (D5). -/
def Obligations.RegisterStore : Prop :=
  ∀ (x : Nibble) (s : State), Decodes (0xF055 + x.toNat * 256) (.ldMemVx x) ∧
    (0x050 ≤ s.i.toNat → s.i.toNat + x.toNat < 4095 → ∃ t, exec (.ldMemVx x) s = .next t ∧
      t.pc = s.pc + 2#16 ∧
      OnlyChanges (fun c => c = .pc ∨ ∃ k, k ≤ x.toNat ∧ c = .mem (s.i.toNat + k)) s t ∧
      (s.mem.wf → ∀ y : Nibble, y.toNat ≤ x.toNat → t.mem.read (s.i.toNat + y.toNat) = s.getV y)) ∧
    (s.i.toNat ≤ 0x04F → exec (.ldMemVx x) s = .next (haltedWith s .fontWrite
      (some (BitVec.ofNat 16 (0xF055 + x.toNat * 256))) (some s.i.toNat))) ∧
    (4095 ≤ s.i.toNat + x.toNat → exec (.ldMemVx x) s = .next (haltedWith s .memBounds
      (some (BitVec.ofNat 16 (0xF055 + x.toNat * 256))) (some (max s.i.toNat 4095))))

/-- LD Vx, [I] (44_memory_transfer.md R234, R235): the registers above `Vx`, `I` and all memory are
unchanged (`I` by the spec's decision D13). -/
def Obligations.RegisterLoad : Prop :=
  ∀ (x : Nibble) (s : State), Decodes (0xF065 + x.toNat * 256) (.ldVxMem x) ∧
    (s.i.toNat + x.toNat < 4095 → ∃ t, exec (.ldVxMem x) s = .next t ∧
      (∀ y : Nibble, y.toNat ≤ x.toNat → t.getV y = s.mem.read (s.i.toNat + y.toNat)) ∧
      t.pc = s.pc + 2#16 ∧
      OnlyChanges (fun c => c = .pc ∨ ∃ y : Nibble, y.toNat ≤ x.toNat ∧ c = .v y) s t) ∧
    (4095 ≤ s.i.toNat + x.toNat → exec (.ldVxMem x) s = .next (haltedWith s .memBounds
      (some (BitVec.ofNat 16 (0xF065 + x.toNat * 256))) (some (max s.i.toNat 4095))))

/-- The round trip (44_memory_transfer.md R236). -/
def Obligations.StoreThenLoadRestoresRegisters : Prop :=
  ∀ (x : Nibble) (s : State), s.mem.wf → 0x050 ≤ s.i.toNat → s.i.toNat + x.toNat < 4095 →
    ∃ t u, exec (.ldMemVx x) s = .next t ∧ exec (.ldVxMem x) t = .next u ∧
      (∀ y : Nibble, u.getV y = s.getV y) ∧ u.i = s.i

/-- The bytes `FX55` and `FX33` store are the bytes any later cycle fetches (20_memory.md R61; the spec's
decision D25): whatever else changed, a fetch of two consecutive stored bytes of that memory gives the
registers' bytes, or the digits, as the word. -/
def Obligations.StoredBytesAreFetched : Prop :=
  (∀ (x : Nibble) (s : State), s.mem.wf → 0x050 ≤ s.i.toNat → s.i.toNat + x.toNat < 4095 →
    ∃ t, exec (.ldMemVx x) s = .next t ∧
      ∀ (u : State) (y z : Nibble), u.mem = t.mem → z.toNat = y.toNat + 1 → z.toNat ≤ x.toNat →
        u.pc.toNat = s.i.toNat + y.toNat →
        fetch u = .ok (BitVec.ofNat 16 ((s.getV y).toNat * 256 + (s.getV z).toNat))) ∧
  (∀ (x : Nibble) (s : State), s.mem.wf → 0x050 ≤ s.i.toNat → s.i.toNat + 2 < 4095 →
    ∃ t, exec (.ldBVx x) s = .next t ∧ ∀ u : State, u.mem = t.mem →
      (u.pc.toNat = s.i.toNat → fetch u =
        .ok (BitVec.ofNat 16 ((s.getV x).toNat / 100 * 256 + (s.getV x).toNat / 10 % 10))) ∧
      (u.pc.toNat = s.i.toNat + 1 → fetch u =
        .ok (BitVec.ofNat 16 ((s.getV x).toNat / 10 % 10 * 256 + (s.getV x).toNat % 10))))

/-- The canonical form is one list for one content (the model's representation of 10_state.md R32). -/
def Obligations.CanonicalMemoryIsDetermined : Prop :=
  ∀ m m' : Memory, m.wf → m'.wf → (∀ a, a < 4095 → m.read a = m'.read a) → m = m'

/-! ## The whole machine -/

/-- The access summary (10_state.md R37): an instruction either halts, changing `HALTED` and `FAULT` only, or
writes no component but those the summary gives it. -/
def Obligations.InstructionsWriteOnlyTheirComponents : Prop :=
  ∀ (i : Instr) (s t : State), exec i s = .next t →
    OnlyChanges (fun c => c = .halted ∨ c = .fault) s t ∨ OnlyChanges (MayWrite s i) s t

/-- Which host operations can change `I` (10_state.md R24; 44_memory_transfer.md R235), the call stack
(10_state.md R26), the timers (43_keys_timers.md R210), `KEY` (10_state.md R30; 43_keys_timers.md R200) and
`MEM` (10_state.md R37; 20_memory.md R63): every change comes from `TickTimers`, `SetKey` or a cycle of one
of the instructions named. -/
def Obligations.WritersOfEachComponent : Prop :=
  ∀ (op : HostOp) (s t : State), hostStep op s = .next t →
    (t.i ≠ s.i → op = .cycle ∧ ∃ w, fetch s = .ok w ∧ ((∃ nnn, decode w = .ok (.ldI nnn)) ∨
      (∃ x, decode w = .ok (.addIVx x)) ∨ ∃ x, decode w = .ok (.ldFVx x))) ∧
    (t.sp ≠ s.sp → op = .cycle ∧ ∃ w, fetch s = .ok w ∧
      ((∃ nnn, decode w = .ok (.call nnn)) ∨ decode w = .ok .ret)) ∧
    (t.stack ≠ s.stack → op = .cycle ∧ ∃ w nnn, fetch s = .ok w ∧ decode w = .ok (.call nnn)) ∧
    (t.dt ≠ s.dt → op = .tickTimers ∨ op = .cycle ∧ ∃ w x, fetch s = .ok w ∧ decode w = .ok (.ldDtVx x)) ∧
    (t.st ≠ s.st → op = .tickTimers ∨ op = .cycle ∧ ∃ w x, fetch s = .ok w ∧ decode w = .ok (.ldStVx x)) ∧
    (t.key ≠ s.key → ∃ k, op = .setKey k) ∧
    (t.mem ≠ s.mem → op = .cycle ∧ ∃ w x, fetch s = .ok w ∧
      (decode w = .ok (.ldBVx x) ∨ decode w = .ok (.ldMemVx x)))

/-- Only a cycle of `00E0` or `DXYN` changes the framebuffer, and only `DXYN` reads it (42_display.md R177):
any other instruction does the same whatever the framebuffer holds. The two states compared take the same
draws, as `CXKK` needs (the model's choice, log entries 8 and 17). -/
def Obligations.OnlyDrawAndClearTouchTheFramebuffer : Prop :=
  (∀ (op : HostOp) (s t : State), hostStep op s = .next t → t.fb ≠ s.fb →
    op = .cycle ∧ ∃ w, fetch s = .ok w ∧ (decode w = .ok .cls ∨ ∃ x y n, decode w = .ok (.drw x y n))) ∧
  (∀ (i : Instr) (s t : State) (fb : Framebuffer), (∀ x y n, i ≠ .drw x y n) → exec i s = .next t →
    exec i { s with fb := fb } = .next { t with fb := if i = .cls then t.fb else fb })

/-- The font is never mutated after construction (20_memory.md R53, R55): no host schedule changes a byte of
0x000..0x04F (the spec's decision D5 makes the write fatal). -/
def Obligations.FontNeverChangesInASession : Prop :=
  ∀ (ops : List HostOp) (s t : State), runSession ops s = .next t →
    ∀ a, a ≤ 0x04F → t.mem.read a = s.mem.read a

/-- Every step, and every other host operation, keeps the session invariant: canonical memory, halted exactly
with a fault recorded, and a record a fatal at the current `PC` leaves (10_state.md R34, R35;
60_exceptions.md R250, R253 to R255, R269). -/
def Obligations.InvariantKeptByEveryStep : Prop :=
  (∀ s t : State, Inv s → step s = .next t → Inv t) ∧
  (∀ (op : HostOp) (s t : State), Inv s → hostStep op s = .next t → Inv t)

/-- The session invariant holds at reset, and the reset state is neither halted nor faulted (10_state.md
R39). -/
def Obligations.InvariantHoldsAtReset : Prop :=
  Inv State.reset ∧ State.reset.halted = false ∧ State.reset.fault = none

/-- Every host schedule keeps the session invariant, from every state that has it, and every construction
has it, whatever the program, quirk, font and fill (60_exceptions.md R269, R273; 70_reset_and_hazards.md
R280): so it holds in every state of every session. -/
def Obligations.InvariantHoldsInEverySession : Prop :=
  (∀ (ops : List HostOp) (s t : State), Inv s → runSession ops s = .next t → Inv t) ∧
  (∀ program quirk font fill s, construct program quirk font fill = .next s → Inv s)

/-- `QUIRK` (00_scope.md R10): constant for the life of a session, and read by the shifts only, so that
changing it changes nothing else any other instruction does. The two states compared take the same draws,
as `CXKK` needs (the model's choice, log entries 8 and 17). -/
def Obligations.QuirkIsConstantAndReadByShiftsOnly : Prop :=
  (∀ ops s t, runSession ops s = .next t → t.quirk = s.quirk) ∧
  (∀ i s t q, (∀ x y, i ≠ .shr x y) → (∀ x y, i ≠ .shl x y) → exec i s = .next t →
    exec i { s with quirk := q } = .next { t with quirk := q })

/-- The sound timer is observable by nothing (10_state.md R29): two sessions that differ in `ST` only, with the
same draws (log entry 17), stay so under every host schedule, and every host operation returns the same in
both; a schedule the one refuses the other refuses too. -/
def Obligations.SoundTimerIsUnobservable : Prop :=
  ∀ (ops : List HostOp) (s : State) (b : Byte),
    (∀ t, runSession ops s = .next t →
      ∃ b', runSession ops { s with st := b } = .next { t with st := b' } ∧
        ∀ op, hostResult op { t with st := b' } = hostResult op t) ∧
    (∀ r, runSession ops s = .refused r → runSession ops { s with st := b } = .refused r)

/-- Construction (70_reset_and_hazards.md R280; 10_state.md R39): a program that does not fit is refused; else
every component has the value of the table (`FB` by the spec's decision D15, the refusal by D20). -/
def Obligations.ConstructionLeavesTheTable : Prop :=
  ∀ (program : List Byte) (quirk : Bool) (font : Vector Byte 80) (fill : Nat → Byte),
    (4095 < 0x200 + program.length →
      construct program quirk font fill = .refused (.programTooLarge program.length)) ∧
    (0x200 + program.length ≤ 4095 → ∃ s, construct program quirk font fill = .next s ∧
      (∀ x, s.getV x = 0#8) ∧ s.i = 0#16 ∧ s.pc = 0x200#16 ∧ s.spInt = -1 ∧
      (∀ j : Fin 16, s.stack[j.val] = 0#16) ∧ s.dt = 0#8 ∧ s.st = 0#8 ∧ s.key = none ∧
      (∀ k, fbGet s.fb k = false) ∧
      (∀ a : Fin 80, s.mem.read a.val = font[a.val]) ∧
      (∀ k : Fin program.length, s.mem.read (0x200 + k.val) = program[k.val]) ∧
      (∀ a, a < 4095 → 80 ≤ a → (a < 0x200 ∨ 0x200 + program.length ≤ a) → s.mem.read a = fill a) ∧
      s.quirk = quirk ∧ s.halted = false ∧ s.fault = none)

/-- The model's reset state is the session constructed with an empty program, `QUIRK = 0`, the default
font and the fill 0x00 (the model's choices of log entries 5, 6 and 7; 10_state.md R39). -/
def Obligations.ResetIsAConstructedSession : Prop :=
  ∃ font : Vector Byte 80, font.toList = defaultFont ∧
    construct [] false font (fun _ => 0#8) = .next State.reset

/-- The three reads of the host (60_exceptions.md R270 to R272): what they return, with no side effect. -/
def Obligations.HostReadsHaveNoSideEffect : Prop :=
  ∀ s : State,
    hostStep .readFramebuffer s = .next s ∧ hostStep .snapshot s = .next s ∧ hostStep .readStatus s = .next s ∧
    (∃ bits, hostResult .readFramebuffer s = .pixels bits ∧ bits.length = 2048 ∧
      ∀ px py, px < 64 → py < 32 → bits[px + py * 64]? = some (fbGet s.fb (px + py * 64))) ∧
    (∃ d, hostResult .snapshot s = .registers d ∧ d.v = s.v ∧ d.stack = s.stack ∧ d.sp = s.spInt ∧
      d.pc = s.pc ∧ d.i = s.i) ∧
    hostResult .readStatus s = .status s.halted s.fault

/-- The fatals of the instructions, exactly (60_exceptions.md R250, R252 to R254, R256, R257): where the
instruction's own condition holds, its only effect is that fatal, with the cause and the address recorded;
everywhere else it completes without one. -/
def Obligations.InstructionFatalsAreExact : Prop :=
  ∀ (i : Instr) (s : State),
    (∀ r, fatalOf i s = some r → exec i s = .next (haltedWith s r.cause (some (encode i)) r.addr)) ∧
    (fatalOf i s = none → ∃ t, exec i s = .next t ∧ t.halted = s.halted ∧ t.fault = s.fault)
end

