-- ==== Sys2Proof/Laws/Decode.lean ====
section
/-! SUPPORT. Fields of packed words and of numerals, for statements about decoding and encoding. -/

namespace Sys2Proof

theorem packNnn_toNat (f : Nibble) (a : Addr) : (packNnn f a).toNat = f.toNat * 4096 + a.toNat := by
  show (f ++ a : BitVec (4 + 12)).toNat = _
  rw [BitVec.toNat_append, ← Nat.shiftLeft_add_eq_or_of_lt a.isLt, Nat.shiftLeft_eq]

theorem packXkk_toNat (f x : Nibble) (kk : Byte) :
    (packXkk f x kk).toNat = f.toNat * 4096 + x.toNat * 256 + kk.toNat := by
  show (f ++ (x ++ kk : BitVec (4 + 8)) : BitVec (4 + 12)).toNat = _
  rw [BitVec.toNat_append, ← Nat.shiftLeft_add_eq_or_of_lt (BitVec.isLt _), Nat.shiftLeft_eq,
    BitVec.toNat_append, ← Nat.shiftLeft_add_eq_or_of_lt kk.isLt, Nat.shiftLeft_eq]
  omega

theorem packXyn_eq (f x y n : Nibble) : packXyn f x y n = packXkk f x (y ++ n : BitVec (4 + 4)) := rfl

theorem packXyn_toNat (f x y n : Nibble) :
    (packXyn f x y n).toNat = f.toNat * 4096 + x.toNat * 256 + y.toNat * 16 + n.toNat := by
  rw [packXyn_eq, packXkk_toNat, BitVec.toNat_append, ← Nat.shiftLeft_add_eq_or_of_lt n.isLt,
    Nat.shiftLeft_eq]
  omega

/-! ## Fields as numbers -/

theorem fieldFamily_toNat (op : Word) : (fieldFamily op).toNat = op.toNat / 4096 := by
  have := op.isLt
  simp only [fieldFamily, BitVec.extractLsb'_toNat, Nat.shiftRight_eq_div_pow]; omega

theorem fieldX_toNat (op : Word) : (fieldX op).toNat = op.toNat / 256 % 16 := by
  simp only [fieldX, BitVec.extractLsb'_toNat, Nat.shiftRight_eq_div_pow]

theorem fieldY_toNat (op : Word) : (fieldY op).toNat = op.toNat / 16 % 16 := by
  simp only [fieldY, BitVec.extractLsb'_toNat, Nat.shiftRight_eq_div_pow]

theorem fieldN_toNat (op : Word) : (fieldN op).toNat = op.toNat % 16 := by
  simp only [fieldN, BitVec.extractLsb'_toNat, Nat.shiftRight_eq_div_pow]; omega

theorem fieldKk_toNat (op : Word) : (fieldKk op).toNat = op.toNat % 256 := by
  simp only [fieldKk, BitVec.extractLsb'_toNat, Nat.shiftRight_eq_div_pow]; omega

theorem fieldNnn_toNat (op : Word) : (fieldNnn op).toNat = op.toNat % 4096 := by
  simp only [fieldNnn, BitVec.extractLsb'_toNat, Nat.shiftRight_eq_div_pow]; omega

/-! ## Fields of packed words -/

@[simp] theorem fieldFamily_packNnn (f : Nibble) (a : Addr) : fieldFamily (packNnn f a) = f := by
  apply BitVec.eq_of_toNat_eq; rw [fieldFamily_toNat, packNnn_toNat]; omega

@[simp] theorem fieldNnn_packNnn (f : Nibble) (a : Addr) : fieldNnn (packNnn f a) = a := by
  apply BitVec.eq_of_toNat_eq; rw [fieldNnn_toNat, packNnn_toNat]; omega

@[simp] theorem fieldFamily_packXkk (f x : Nibble) (kk : Byte) : fieldFamily (packXkk f x kk) = f := by
  apply BitVec.eq_of_toNat_eq; rw [fieldFamily_toNat, packXkk_toNat]; omega

@[simp] theorem fieldX_packXkk (f x : Nibble) (kk : Byte) : fieldX (packXkk f x kk) = x := by
  apply BitVec.eq_of_toNat_eq; rw [fieldX_toNat, packXkk_toNat]; omega

@[simp] theorem fieldKk_packXkk (f x : Nibble) (kk : Byte) : fieldKk (packXkk f x kk) = kk := by
  apply BitVec.eq_of_toNat_eq; rw [fieldKk_toNat, packXkk_toNat]; omega

@[simp] theorem fieldFamily_packXyn (f x y n : Nibble) : fieldFamily (packXyn f x y n) = f := by
  apply BitVec.eq_of_toNat_eq; rw [fieldFamily_toNat, packXyn_toNat]; omega

@[simp] theorem fieldX_packXyn (f x y n : Nibble) : fieldX (packXyn f x y n) = x := by
  apply BitVec.eq_of_toNat_eq; rw [fieldX_toNat, packXyn_toNat]; omega

@[simp] theorem fieldY_packXyn (f x y n : Nibble) : fieldY (packXyn f x y n) = y := by
  apply BitVec.eq_of_toNat_eq; rw [fieldY_toNat, packXyn_toNat]; omega

@[simp] theorem fieldN_packXyn (f x y n : Nibble) : fieldN (packXyn f x y n) = n := by
  apply BitVec.eq_of_toNat_eq; rw [fieldN_toNat, packXyn_toNat]; omega

/-! ## Packed words as numerals, and bytes of a word -/

theorem packNnn_eq_ofNat (f : Nibble) (a : Addr) :
    packNnn f a = BitVec.ofNat 16 (f.toNat * 4096 + a.toNat) := by
  apply BitVec.eq_of_toNat_eq; rw [packNnn_toNat, BitVec.toNat_ofNat]; omega

theorem packXkk_eq_ofNat (f x : Nibble) (kk : Byte) :
    packXkk f x kk = BitVec.ofNat 16 (f.toNat * 4096 + x.toNat * 256 + kk.toNat) := by
  apply BitVec.eq_of_toNat_eq; rw [packXkk_toNat, BitVec.toNat_ofNat]; omega

theorem packXyn_eq_ofNat (f x y n : Nibble) :
    packXyn f x y n = BitVec.ofNat 16 (f.toNat * 4096 + x.toNat * 256 + y.toNat * 16 + n.toNat) := by
  apply BitVec.eq_of_toNat_eq; rw [packXyn_toNat, BitVec.toNat_ofNat]; omega

theorem opcodeOf_toNat (hi lo : Byte) : (opcodeOf hi lo).toNat = hi.toNat * 256 + lo.toNat := by
  show (hi ++ lo : BitVec (8 + 8)).toNat = _
  rw [BitVec.toNat_append, ← Nat.shiftLeft_add_eq_or_of_lt lo.isLt, Nat.shiftLeft_eq]

@[simp] theorem opcodeOf_bytes (op : Word) : opcodeOf (highByte op) (lowByte op) = op := by
  apply BitVec.eq_of_toNat_eq
  have := op.isLt
  simp only [opcodeOf_toNat, highByte, lowByte, BitVec.extractLsb'_toNat, Nat.shiftRight_eq_div_pow]
  omega

/-- The packed word of a word's own fields is the word. -/
theorem packNnn_fields (op : Word) : packNnn (fieldFamily op) (fieldNnn op) = op := by
  apply BitVec.eq_of_toNat_eq
  rw [packNnn_toNat, fieldFamily_toNat, fieldNnn_toNat]; omega

theorem packXkk_fields (op : Word) : packXkk (fieldFamily op) (fieldX op) (fieldKk op) = op := by
  apply BitVec.eq_of_toNat_eq
  rw [packXkk_toNat, fieldFamily_toNat, fieldX_toNat, fieldKk_toNat]; omega

theorem packXyn_fields (op : Word) :
    packXyn (fieldFamily op) (fieldX op) (fieldY op) (fieldN op) = op := by
  apply BitVec.eq_of_toNat_eq
  rw [packXyn_toNat, fieldFamily_toNat, fieldX_toNat, fieldY_toNat, fieldN_toNat]; omega

/-- A nibble whose number is known is that literal: turns the decoder's `toNat` matches back into fields. -/
theorem nibble_eq_of_toNat {a : Nibble} {k : Nat} (h : a.toNat = k) : a = BitVec.ofNat 4 k := by
  subst h; simp

theorem byte_eq_of_toNat {a : Byte} {k : Nat} (h : a.toNat = k) : a = BitVec.ofNat 8 k := by
  subst h; simp

end Sys2Proof
end

