-- ==== Sys2Proof/Laws/Framebuffer.lean ====
section
/-! SUPPORT. What the framebuffer unit and the drawing loops do, pixel by pixel. -/

namespace Sys2Proof.Machine

theorem twoPow_getLsbD (i j : Nat) (hi : i < 64) : (BitVec.twoPow 64 i).getLsbD j = decide (j = i) := by
  rw [BitVec.getLsbD_twoPow]
  by_cases h : j = i
  · subst h; simp [hi]
  · simp [h, Ne.symm h]

/-- `FbXor` toggles the one pixel by the bit and reports the collision. -/
theorem fbXor_get (fb : Framebuffer) (px py : Nat) (b : Bool) (hx : px < 64) (hy : py < 32) (k : Nat) :
    fbGet (fbXor fb px py b).1 k = (fbGet fb k ^^ (decide (k = px + py * 64) && b)) := by
  simp only [fbXor, fbGet]
  have hrow : (px + py * 64) / 64 = py := by omega
  have hcol : (px + py * 64) % 64 = px := by omega
  rw [hrow, hcol, Vector.getElem?_setIfInBounds]
  by_cases hk : k / 64 = py
  · rw [if_pos hk.symm, if_pos hy, Option.getD_some, BitVec.getLsbD_xor, hk]
    congr 1
    have : (k = px + py * 64) ↔ (k % 64 = px) := by omega
    cases b <;> simp [twoPow_getLsbD _ _ hx, this]
  · rw [if_neg (Ne.symm hk)]
    have : k ≠ px + py * 64 := by omega
    simp [this]

theorem fbXor_collided (fb : Framebuffer) (px py : Nat) (b : Bool) :
    (fbXor fb px py b).2 = (fbGet fb (px + py * 64) && b) := rfl

theorem fbClear_get (k : Nat) : fbGet fbClear k = false := by
  simp only [fbGet, fbClear, Vector.getElem?_replicate]
  by_cases h : k / 64 < 32 <;> simp [h]

/-- A pixel of the row is set and falls on screen column `px`, among columns `c` to `c + left - 1`. -/
def columnHit (x0 : Nat) (row : Byte) (c left px : Nat) : Bool :=
  decide (x0 + c ≤ px ∧ px < x0 + c + left) && spritePixel row (px - x0)

theorem columnHit_succ (x0 : Nat) (row : Byte) (c left px : Nat) :
    columnHit x0 row c (left + 1) px =
      ((decide (px = x0 + c) && spritePixel row c) || columnHit x0 row (c + 1) left px) := by
  simp only [columnHit]
  by_cases h : px = x0 + c
  · subst h; simp
  · have : (x0 + c ≤ px ∧ px < x0 + c + (left + 1)) ↔ (x0 + (c + 1) ≤ px ∧ px < x0 + (c + 1) + left) := by
      omega
    simp [h, this]

/-- What one row draws: it toggles the on-screen pixels it hits in screen row `py` and records whether one
of them was lit. -/
theorem drawColumns_spec (x0 py : Nat) (hy : py < 32) (row : Byte) (c left : Nat) (d : Framebuffer × Bool) :
    (∀ px qy, px < 64 → fbGet (drawColumns x0 py row c left d).1 (px + qy * 64) =
      (fbGet d.1 (px + qy * 64) ^^ (decide (qy = py) && columnHit x0 row c left px))) ∧
    ((drawColumns x0 py row c left d).2 = true ↔ d.2 = true ∨
      ∃ px, px < 64 ∧ columnHit x0 row c left px = true ∧ fbGet d.1 (px + py * 64) = true) := by
  induction left generalizing c d with
  | zero =>
    have h0 : ∀ px, columnHit x0 row c 0 px = false := fun px => by
      simp only [columnHit, Bool.and_eq_false_iff, decide_eq_false_iff_not]; left; omega
    simp [drawColumns, h0]
  | succ left ih =>
    rw [drawColumns]
    by_cases hx : 64 ≤ x0 + c
    · rw [if_pos hx]
      have hsame : ∀ px, px < 64 → columnHit x0 row c (left + 1) px = columnHit x0 row (c + 1) left px :=
        fun px hpx => by rw [columnHit_succ]; simp [show px ≠ x0 + c by omega]
      obtain ⟨ih1, ih2⟩ := ih (c + 1) d
      refine ⟨fun px qy hpx => by rw [ih1 px qy hpx, hsame px hpx], ih2.trans (or_congr_right ?_)⟩
      exact exists_congr fun px => and_congr_right fun hpx => by rw [hsame px hpx]
    · rw [if_neg hx]
      have hx' : x0 + c < 64 := by omega
      obtain ⟨ih1, ih2⟩ := ih (c + 1)
        ((fbXor d.1 (x0 + c) py (spritePixel row c)).1, d.2 || (fbXor d.1 (x0 + c) py (spritePixel row c)).2)
      have hself : columnHit x0 row (c + 1) left (x0 + c) = false := by
        simp only [columnHit, Bool.and_eq_false_iff, decide_eq_false_iff_not]; left; omega
      constructor
      · intro px qy hpx
        rw [ih1 px qy hpx, fbXor_get _ _ _ _ hx' hy, columnHit_succ]
        by_cases hq : qy = py
        · subst hq
          by_cases hp : px = x0 + c
          · subst hp; simp [hself]
          · simp [hp]
        · have : px + qy * 64 ≠ x0 + c + py * 64 := by omega
          simp [hq, this]
      · rw [ih2]
        simp only [fbXor_collided, Bool.or_eq_true, Bool.and_eq_true]
        constructor
        · rintro ((h | ⟨h1, h2⟩) | ⟨px, hpx, h1, h2⟩)
          · exact .inl h
          · exact .inr ⟨x0 + c, hx', by simp [columnHit_succ, h2], h1⟩
          · have hne : px ≠ x0 + c := by rintro rfl; simp [hself] at h1
            rw [fbXor_get _ _ _ _ hx' hy] at h2
            exact .inr ⟨px, hpx, by simp [columnHit_succ, h1], by simpa [hne] using h2⟩
        · rintro (h | ⟨px, hpx, h1, h2⟩)
          · exact .inl (.inl h)
          · by_cases hp : px = x0 + c
            · subst hp
              rw [columnHit_succ] at h1
              exact .inl (.inr ⟨h2, by simpa [hself] using h1⟩)
            · refine .inr ⟨px, hpx, by simpa [columnHit_succ, hp] using h1, ?_⟩
              rw [fbXor_get _ _ _ _ hx' hy]; simpa [hp] using h2

/-- A set sprite pixel of the listed rows falls on screen pixel `(px, qy)`, the first row being screen row
`py`. -/
def rowsHit (x0 py : Nat) (rows : List Byte) (px qy : Nat) : Bool :=
  decide (py ≤ qy ∧ qy < py + rows.length ∧ qy < 32) && columnHit x0 (rows.getD (qy - py) 0#8) 0 8 px

theorem rowsHit_cons (x0 py : Nat) (row : Byte) (rows : List Byte) (px qy : Nat) :
    rowsHit x0 py (row :: rows) px qy =
      ((decide (qy = py ∧ py < 32) && columnHit x0 row 0 8 px) || rowsHit x0 (py + 1) rows px qy) := by
  simp only [rowsHit, List.length_cons]
  by_cases h : qy = py
  · subst h; simp
  · by_cases hlt : py + 1 ≤ qy
    · have : qy - py = (qy - (py + 1)) + 1 := by omega
      rw [this, List.getD_cons_succ]
      have e : (py ≤ qy ∧ qy < py + (rows.length + 1) ∧ qy < 32) ↔
          (py + 1 ≤ qy ∧ qy < py + 1 + rows.length ∧ qy < 32) := by omega
      simp [h, e]
    · have e1 : ¬ (py ≤ qy ∧ qy < py + (rows.length + 1) ∧ qy < 32) := by omega
      have e2 : ¬ (py + 1 ≤ qy ∧ qy < py + 1 + rows.length ∧ qy < 32) := by omega
      rw [decide_eq_false e1, decide_eq_false e2]; simp [h]

/-- What a sprite draws: it toggles the on-screen pixels it hits and records whether one of them was
lit. -/
theorem drawRows_spec (x0 py : Nat) (rows : List Byte) (d : Framebuffer × Bool) :
    (∀ px qy, px < 64 → fbGet (drawRows x0 py rows d).1 (px + qy * 64) =
      (fbGet d.1 (px + qy * 64) ^^ rowsHit x0 py rows px qy)) ∧
    ((drawRows x0 py rows d).2 = true ↔ d.2 = true ∨
      ∃ px qy, px < 64 ∧ rowsHit x0 py rows px qy = true ∧ fbGet d.1 (px + qy * 64) = true) := by
  induction rows generalizing py d with
  | nil =>
    have h0 : ∀ px qy, rowsHit x0 py [] px qy = false := fun px qy => by
      simp only [rowsHit, List.length_nil, Bool.and_eq_false_iff, decide_eq_false_iff_not]; left; omega
    simp [drawRows, h0]
  | cons row rows ih =>
    rw [drawRows]
    by_cases hy : 32 ≤ py
    · rw [if_pos hy]
      have hsame : ∀ px qy, rowsHit x0 py (row :: rows) px qy = rowsHit x0 (py + 1) rows px qy :=
        fun px qy => by rw [rowsHit_cons]; simp [show ¬ (qy = py ∧ py < 32) by omega]
      simpa only [hsame] using ih (py + 1) d
    · rw [if_neg hy]
      obtain ⟨c1, c2⟩ := drawColumns_spec x0 py (by omega) row 0 8 d
      obtain ⟨ih1, ih2⟩ := ih (py + 1) (drawColumns x0 py row 0 8 d)
      have hlater : ∀ px qy, rowsHit x0 (py + 1) rows px qy = true → qy ≠ py := by
        rintro px qy h rfl
        simp only [rowsHit, Bool.and_eq_true, decide_eq_true_eq] at h; omega
      constructor
      · intro px qy hpx
        rw [ih1 px qy hpx, c1 px qy hpx, rowsHit_cons]
        by_cases hq : qy = py
        · have : rowsHit x0 (py + 1) rows px qy = false := by
            by_contra h; exact hlater px qy (by simpa using h) hq
          subst hq; simp [this, show qy < 32 by omega]
        · simp [hq]
      · rw [ih2, c2, or_assoc]
        refine or_congr_right ⟨?_, ?_⟩
        · rintro (⟨px, hpx, h1, h2⟩ | ⟨px, qy, hpx, h1, h2⟩)
          · exact ⟨px, py, hpx, by simp [rowsHit_cons, h1, show py < 32 by omega], h2⟩
          · rw [c1 px qy hpx] at h2
            exact ⟨px, qy, hpx, by simp [rowsHit_cons, h1], by simpa [hlater px qy h1] using h2⟩
        · rintro ⟨px, qy, hpx, h1, h2⟩
          rw [rowsHit_cons, Bool.or_eq_true] at h1
          rcases h1 with h1 | h1
          · simp only [Bool.and_eq_true, decide_eq_true_eq] at h1
            obtain ⟨⟨rfl, -⟩, h1⟩ := h1
            exact .inl ⟨px, hpx, h1, h2⟩
          · refine .inr ⟨px, qy, hpx, h1, ?_⟩
            rw [c1 px qy hpx]; simpa [hlater px qy h1] using h2

end Sys2Proof.Machine
end

