-- ==== Sys2Proof/Laws/Memory.lean ====
section
/-! SUPPORT. The laws of memory: a read after a write, the canonical form, and what the byte loops do. -/

namespace Sys2Proof.Machine

namespace Memory

@[simp] theorem read_nil (a : Nat) : read [] a = blank a := rfl

/-- An address below every listed one reads as blank. -/
theorem read_of_lt (m : Memory) (a : Nat) (h : ∀ c ∈ m, a < c.1) : m.read a = blank a := by
  induction m with
  | nil => rfl
  | cons c m ih =>
    have hc := h c (by simp)
    simp only [read]
    rw [if_neg (by omega), ih fun d hd => h d (by simp [hd])]

/-- Reading after a write, on a sorted memory. -/
theorem read_write (m : Memory) (hs : m.Pairwise fun c d => c.1 < d.1) (a : Nat) (v : Byte) (b : Nat) :
    (m.write a v).read b = if b = a then v else m.read b := by
  induction m with
  | nil => by_cases hv : v = blank a <;> by_cases hb : b = a <;> simp_all [write, read]
  | cons c m ih =>
    obtain ⟨hc, hm⟩ := List.pairwise_cons.1 hs
    have tail : a ≤ c.1 → read m a = blank a := fun h => read_of_lt m a fun d hd => by
      have := hc d hd; omega
    simp only [write]
    split
    · rename_i h1
      split
      · rename_i h2
        by_cases hb : b = a
        · subst hb; rw [if_pos rfl, h2]; simp only [read]; rw [if_neg (by omega), tail (by omega)]
        · simp [hb]
      · by_cases hb : b = a <;> simp [read, hb]
    · split
      · rename_i h1 h2
        split
        · rename_i h3
          by_cases hb : b = a
          · subst hb; rw [if_pos rfl, tail (by omega), h3]
          · simp only [read]; rw [if_neg (by omega), if_neg (by omega)]
        · by_cases hb : b = a
          · simp [read, hb]
          · rw [if_neg hb]; simp only [read]; rw [if_neg hb, if_neg (by omega)]
      · rename_i h1 h2
        simp only [read, ih hm]
        by_cases hb : b = c.1
        · rw [if_pos hb, if_neg (by omega), if_pos hb]
        · rw [if_neg hb, if_neg hb]

/-- A write leaves every other address as it was, on any list. -/
theorem read_write_ne (m : Memory) (a : Nat) (v : Byte) (b : Nat) (hb : b ≠ a) :
    (m.write a v).read b = m.read b := by
  induction m with
  | nil => by_cases hv : v = blank a <;> simp [write, read, hv, hb]
  | cons c m ih =>
    simp only [write]
    split
    · split
      · rfl
      · simp [read, hb]
    · split
      · rename_i h1 h2
        have hbc : b ≠ c.1 := h2 ▸ hb
        split <;> simp [read, hb, hbc]
      · simp only [read, ih]

/-- A write keeps every listed address above a bound that is below the address written. -/
theorem lt_of_mem_write (m : Memory) (k a : Nat) (v : Byte) (hk : k < a) (h : ∀ c ∈ m, k < c.1) :
    ∀ c ∈ m.write a v, k < c.1 := by
  induction m with
  | nil => intro c hc; simp only [write] at hc; split at hc <;> simp_all
  | cons d m ih =>
    have ih := ih fun c hc => h c (by simp [hc])
    intro c hc
    simp only [write] at hc
    split at hc
    · split at hc
      · exact h c hc
      · rcases List.mem_cons.1 hc with rfl | hc
        · exact hk
        · exact h c hc
    · split at hc
      · split at hc
        · exact h c (by simp [hc])
        · rcases List.mem_cons.1 hc with rfl | hc
          · exact hk
          · exact h c (by simp [hc])
      · rcases List.mem_cons.1 hc with rfl | hc
        · exact h _ (by simp)
        · exact ih c hc

/-- A write at a present address keeps the canonical form. -/
theorem wf_write (m : Memory) (h : m.wf) (a : Nat) (ha : a < memSize) (v : Byte) : (m.write a v).wf := by
  induction m with
  | nil => by_cases hv : v = blank a <;> simp_all [write, wf]
  | cons c m ih =>
    obtain ⟨hs, hb⟩ := h
    obtain ⟨hc, hm⟩ := List.pairwise_cons.1 hs
    have hbm : ∀ d ∈ m, d.1 < memSize ∧ d.2 ≠ blank d.1 := fun d hd => hb d (by simp [hd])
    have hbc := hb c (by simp)
    simp only [write]
    split
    · split
      · exact ⟨hs, hb⟩
      · rename_i h1 h2
        refine ⟨List.pairwise_cons.2 ⟨?_, hs⟩, ?_⟩
        · intro d hd
          rcases List.mem_cons.1 hd with rfl | hd
          · exact h1
          · have := hc d hd; simp only; omega
        · intro d hd
          rcases List.mem_cons.1 hd with rfl | hd
          · exact ⟨ha, h2⟩
          · exact hb d hd
    · split
      · rename_i h1 h2
        split
        · exact ⟨hm, hbm⟩
        · rename_i h3
          refine ⟨List.pairwise_cons.2 ⟨fun d hd => ?_, hm⟩, ?_⟩
          · have := hc d hd; simp only; omega
          · intro d hd
            rcases List.mem_cons.1 hd with rfl | hd
            · exact ⟨ha, h3⟩
            · exact hbm d hd
      · rename_i h1 h2
        obtain ⟨ihs, ihb⟩ := ih ⟨hm, hbm⟩
        refine ⟨List.pairwise_cons.2 ⟨lt_of_mem_write m c.1 a v (by omega) hc, ihs⟩, ?_⟩
        intro d hd
        rcases List.mem_cons.1 hd with rfl | hd
        · exact hbc
        · exact ihb d hd

theorem wf_nil : wf [] := by simp [wf]

/-- A tabulated memory is canonical. -/
theorem wf_tabulate (f : Nat → Byte) : (tabulate f).wf := by
  unfold tabulate
  refine ⟨?_, ?_⟩
  · refine (List.pairwise_filterMap.2 ?_)
    refine List.pairwise_lt_range.imp ?_
    intro a b hab c hc d hd
    split at hc <;> split at hd <;> simp_all
    rw [← hc, ← hd]; exact hab
  · intro c hc
    simp only [List.mem_filterMap, List.mem_range] at hc
    obtain ⟨a, ha, h⟩ := hc
    split at h
    · cases h
    · simp only [Option.some.injEq] at h; subst h; exact ⟨ha, by assumption⟩

theorem read_filterMap (f : Nat → Byte) (l : List Nat) (a : Nat) :
    read (l.filterMap fun a => if f a = blank a then none else some (a, f a)) a =
      if a ∈ l then f a else blank a := by
  induction l with
  | nil => simp
  | cons b l ih =>
    by_cases hb : f b = blank b
    · rw [List.filterMap_cons, if_pos hb]
      simp only [ih, List.mem_cons]
      by_cases hab : a = b
      · subst hab; simp [hb]
      · simp [hab]
    · rw [List.filterMap_cons, if_neg hb]
      simp only [read, ih, List.mem_cons]
      by_cases hab : a = b
      · subst hab; simp
      · simp [hab]

/-- A tabulated memory reads as its function at every present address, and as blank elsewhere. -/
theorem read_tabulate (f : Nat → Byte) (a : Nat) :
    (tabulate f).read a = if a < memSize then f a else blank a := by
  unfold tabulate
  rw [read_filterMap]
  simp only [List.mem_range]

end Memory

/-! ## The primitives -/

theorem memRead_ok {m : Memory} {a : Nat} (h : a < memSize) : memRead m a = .ok (m.read a) := by
  simp [memRead, Nat.not_le.2 h]

theorem memRead_error {m : Memory} {a : Nat} (h : memSize ≤ a) : memRead m a = .error ⟨.memBounds, some a⟩ := by
  simp [memRead, h]

theorem memWrite_ok {m : Memory} {a : Nat} {v : Byte} (hf : fontSize ≤ a) (h : a < memSize) :
    memWrite m a v = .ok (m.write a v) := by
  simp [memWrite, Nat.not_le.2 h, Nat.not_lt.2 hf]

theorem memWrite_bounds {m : Memory} {a : Nat} {v : Byte} (h : memSize ≤ a) :
    memWrite m a v = .error ⟨.memBounds, some a⟩ := by
  simp [memWrite, h]

theorem memWrite_font {m : Memory} {a : Nat} {v : Byte} (h : a < fontSize) :
    memWrite m a v = .error ⟨.fontWrite, some a⟩ := by
  have : a < memSize := by simp only [memSize, fontSize] at *; omega
  simp [memWrite, Nat.not_le.2 this, h]

/-! ## The byte loops -/

/-- The reads that succeed. -/
theorem loadBytes_ok (m : Memory) (a n : Nat) (h : n = 0 ∨ a + n ≤ memSize) :
    loadBytes m a n = .ok ((List.range n).map fun k => m.read (a + k)) := by
  induction n generalizing a with
  | zero => simp [loadBytes]
  | succ n ih =>
    rw [loadBytes, memRead_ok (by omega), ih (a + 1) (by omega), List.range_succ_eq_map]
    simp [Nat.add_assoc, Nat.add_comm 1]

/-- The reads that reach past the end of memory record the first address past it. -/
theorem loadBytes_error (m : Memory) (a n : Nat) (hn : n ≠ 0) (h : memSize < a + n) :
    loadBytes m a n = .error ⟨.memBounds, some (max a memSize)⟩ := by
  induction n generalizing a with
  | zero => exact absurd rfl hn
  | succ n ih =>
    by_cases ha : memSize ≤ a
    · rw [loadBytes, memRead_error ha, Nat.max_eq_left ha]
    · rw [loadBytes, memRead_ok (by omega), ih (a + 1) (by omega) (by omega)]
      simp only [Nat.max_eq_right (Nat.le_of_lt (Nat.lt_of_not_le ha))]
      rw [Nat.max_eq_right (by omega)]

/-- The writes that succeed: every byte outside the stored ones is as before; on a canonical memory the
stored bytes read back and the canonical form is kept. -/
theorem storeBytes_ok (m : Memory) (a : Nat) (bs : List Byte)
    (h : bs = [] ∨ fontSize ≤ a ∧ a + bs.length ≤ memSize) :
    ∃ m', storeBytes m a bs = .ok m' ∧
      (∀ b, b < a ∨ a + bs.length ≤ b → m'.read b = m.read b) ∧
      (m.wf → m'.wf ∧ ∀ (k : Nat) (hk : k < bs.length), m'.read (a + k) = bs[k]) := by
  induction bs generalizing m a with
  | nil => exact ⟨m, rfl, fun _ _ => rfl, fun hm => ⟨hm, by simp⟩⟩
  | cons v bs ih =>
    obtain ⟨hf, hl⟩ : fontSize ≤ a ∧ a + (bs.length + 1) ≤ memSize := by simpa using h
    obtain ⟨m', h', hout, hin⟩ := ih (m.write a v) (a + 1) (.inr ⟨by omega, by omega⟩)
    refine ⟨m', by rw [storeBytes, memWrite_ok hf (by omega)]; exact h', ?_, fun hm => ?_⟩
    · intro b hb
      simp only [List.length_cons] at hb
      rw [hout b (by omega), m.read_write_ne a v b (by omega)]
    · obtain ⟨hwf, hval⟩ := hin (m.wf_write hm a (by omega) v)
      refine ⟨hwf, fun k hk => ?_⟩
      cases k with
      | zero => simp [hout a (.inl (by omega)), m.read_write hm.1]
      | succ k =>
        have := hval k (by simpa using hk)
        simpa [Nat.add_assoc, Nat.add_comm 1] using this

/-- The writes that start in the font region fail at their first address. -/
theorem storeBytes_font (m : Memory) (a : Nat) (bs : List Byte) (hn : bs ≠ []) (h : a < fontSize) :
    storeBytes m a bs = .error ⟨.fontWrite, some a⟩ := by
  cases bs with
  | nil => exact absurd rfl hn
  | cons v bs => rw [storeBytes, memWrite_font h]

/-- The writes that reach past the end of memory record the first address past it. -/
theorem storeBytes_bounds (m : Memory) (a : Nat) (bs : List Byte) (hn : bs ≠ []) (hf : fontSize ≤ a)
    (h : memSize < a + bs.length) : storeBytes m a bs = .error ⟨.memBounds, some (max a memSize)⟩ := by
  induction bs generalizing m a with
  | nil => exact absurd rfl hn
  | cons v bs ih =>
    simp only [List.length_cons] at h
    by_cases ha : memSize ≤ a
    · rw [storeBytes, memWrite_bounds ha, Nat.max_eq_left ha]
    · have hb : bs ≠ [] := by rintro rfl; simp at h; omega
      rw [storeBytes, memWrite_ok hf (by omega)]
      simp only
      rw [ih _ (a + 1) hb (by omega) (by omega), Nat.max_eq_right (by omega), Nat.max_eq_right (by omega)]

/-- A store of bytes that succeeds lies outside the font region and inside memory. -/
theorem storeBytes_range {m m' : Memory} {a : Nat} {bs : List Byte} (h : storeBytes m a bs = .ok m') :
    bs = [] ∨ fontSize ≤ a ∧ a + bs.length ≤ memSize := by
  by_cases hbs : bs = []
  · exact .inl hbs
  · refine .inr ?_
    by_cases hf : fontSize ≤ a
    · by_cases hl : a + bs.length ≤ memSize
      · exact ⟨hf, hl⟩
      · rw [storeBytes_bounds m a bs hbs hf (by omega)] at h; cases h
    · rw [storeBytes_font m a bs hbs (by omega)] at h; cases h

/-- A fatal of the byte stores names an address that cannot be written. -/
theorem storeBytes_error {m : Memory} {a : Nat} {bs : List Byte} {r : Raised}
    (h : storeBytes m a bs = .error r) :
    (r.cause = .memBounds ∧ ∃ b, r.addr = some b ∧ memSize ≤ b) ∨
      (r.cause = .fontWrite ∧ ∃ b, r.addr = some b ∧ b < fontSize) := by
  induction bs generalizing m a with
  | nil => cases h
  | cons v bs ih =>
    simp only [storeBytes, memWrite] at h
    split at h
    · rename_i hw
      cases h
      split at hw
      · cases hw; exact .inl ⟨rfl, a, rfl, by assumption⟩
      · split at hw
        · cases hw; exact .inr ⟨rfl, a, rfl, by assumption⟩
        · cases hw
    · exact ih h

/-- A fatal of the byte reads names an address past the end of memory. -/
theorem loadBytes_error_addr {m : Memory} {a n : Nat} {r : Raised} (h : loadBytes m a n = .error r) :
    r.cause = .memBounds ∧ ∃ b, r.addr = some b ∧ memSize ≤ b := by
  by_cases hn : n = 0 ∨ a + n ≤ memSize
  · rw [loadBytes_ok m a n hn] at h; cases h
  · rw [loadBytes_error m a n (by omega) (by omega)] at h
    cases h; exact ⟨rfl, _, rfl, Nat.le_max_right _ _⟩

end Sys2Proof.Machine
end

