-- ==== Sys2Proof/Laws/State.lean ====
section
/-! SUPPORT. One lemma for each field of State under each named update, and register reads under them. -/

namespace Sys2Proof.Machine

variable (s : State) (x y : Nibble) (b : Byte) (w : Word) (f : Bool) (op : Option Word) (r : Raised)

/-! ## s.setV x b -/

@[simp] theorem setV_i : (s.setV x b).i = s.i := rfl

@[simp] theorem setV_pc : (s.setV x b).pc = s.pc := rfl

@[simp] theorem setV_sp : (s.setV x b).sp = s.sp := rfl

@[simp] theorem setV_stack : (s.setV x b).stack = s.stack := rfl

@[simp] theorem setV_dt : (s.setV x b).dt = s.dt := rfl

@[simp] theorem setV_st : (s.setV x b).st = s.st := rfl

@[simp] theorem setV_key : (s.setV x b).key = s.key := rfl

@[simp] theorem setV_fb : (s.setV x b).fb = s.fb := rfl

@[simp] theorem setV_mem : (s.setV x b).mem = s.mem := rfl

@[simp] theorem setV_quirk : (s.setV x b).quirk = s.quirk := rfl

@[simp] theorem setV_halted : (s.setV x b).halted = s.halted := rfl

@[simp] theorem setV_fault : (s.setV x b).fault = s.fault := rfl

@[simp] theorem setV_draws : (s.setV x b).draws = s.draws := rfl

/-! ## s.setI w -/

@[simp] theorem setI_v : (s.setI w).v = s.v := rfl

@[simp] theorem setI_i : (s.setI w).i = w := rfl

@[simp] theorem setI_pc : (s.setI w).pc = s.pc := rfl

@[simp] theorem setI_sp : (s.setI w).sp = s.sp := rfl

@[simp] theorem setI_stack : (s.setI w).stack = s.stack := rfl

@[simp] theorem setI_dt : (s.setI w).dt = s.dt := rfl

@[simp] theorem setI_st : (s.setI w).st = s.st := rfl

@[simp] theorem setI_key : (s.setI w).key = s.key := rfl

@[simp] theorem setI_fb : (s.setI w).fb = s.fb := rfl

@[simp] theorem setI_mem : (s.setI w).mem = s.mem := rfl

@[simp] theorem setI_quirk : (s.setI w).quirk = s.quirk := rfl

@[simp] theorem setI_halted : (s.setI w).halted = s.halted := rfl

@[simp] theorem setI_fault : (s.setI w).fault = s.fault := rfl

@[simp] theorem setI_draws : (s.setI w).draws = s.draws := rfl

/-! ## s.jump w -/

@[simp] theorem jump_v : (s.jump w).v = s.v := rfl

@[simp] theorem jump_i : (s.jump w).i = s.i := rfl

@[simp] theorem jump_pc : (s.jump w).pc = w := rfl

@[simp] theorem jump_sp : (s.jump w).sp = s.sp := rfl

@[simp] theorem jump_stack : (s.jump w).stack = s.stack := rfl

@[simp] theorem jump_dt : (s.jump w).dt = s.dt := rfl

@[simp] theorem jump_st : (s.jump w).st = s.st := rfl

@[simp] theorem jump_key : (s.jump w).key = s.key := rfl

@[simp] theorem jump_fb : (s.jump w).fb = s.fb := rfl

@[simp] theorem jump_mem : (s.jump w).mem = s.mem := rfl

@[simp] theorem jump_quirk : (s.jump w).quirk = s.quirk := rfl

@[simp] theorem jump_halted : (s.jump w).halted = s.halted := rfl

@[simp] theorem jump_fault : (s.jump w).fault = s.fault := rfl

@[simp] theorem jump_draws : (s.jump w).draws = s.draws := rfl

/-! ## s.advance -/

@[simp] theorem advance_v : (s.advance).v = s.v := rfl

@[simp] theorem advance_i : (s.advance).i = s.i := rfl

@[simp] theorem advance_pc : (s.advance).pc = s.pc + 2#16 := rfl

@[simp] theorem advance_sp : (s.advance).sp = s.sp := rfl

@[simp] theorem advance_stack : (s.advance).stack = s.stack := rfl

@[simp] theorem advance_dt : (s.advance).dt = s.dt := rfl

@[simp] theorem advance_st : (s.advance).st = s.st := rfl

@[simp] theorem advance_key : (s.advance).key = s.key := rfl

@[simp] theorem advance_fb : (s.advance).fb = s.fb := rfl

@[simp] theorem advance_mem : (s.advance).mem = s.mem := rfl

@[simp] theorem advance_quirk : (s.advance).quirk = s.quirk := rfl

@[simp] theorem advance_halted : (s.advance).halted = s.halted := rfl

@[simp] theorem advance_fault : (s.advance).fault = s.fault := rfl

@[simp] theorem advance_draws : (s.advance).draws = s.draws := rfl

/-! ## s.rewind -/

@[simp] theorem rewind_v : (s.rewind).v = s.v := rfl

@[simp] theorem rewind_i : (s.rewind).i = s.i := rfl

@[simp] theorem rewind_pc : (s.rewind).pc = s.pc - 2#16 := rfl

@[simp] theorem rewind_sp : (s.rewind).sp = s.sp := rfl

@[simp] theorem rewind_stack : (s.rewind).stack = s.stack := rfl

@[simp] theorem rewind_dt : (s.rewind).dt = s.dt := rfl

@[simp] theorem rewind_st : (s.rewind).st = s.st := rfl

@[simp] theorem rewind_key : (s.rewind).key = s.key := rfl

@[simp] theorem rewind_fb : (s.rewind).fb = s.fb := rfl

@[simp] theorem rewind_mem : (s.rewind).mem = s.mem := rfl

@[simp] theorem rewind_quirk : (s.rewind).quirk = s.quirk := rfl

@[simp] theorem rewind_halted : (s.rewind).halted = s.halted := rfl

@[simp] theorem rewind_fault : (s.rewind).fault = s.fault := rfl

@[simp] theorem rewind_draws : (s.rewind).draws = s.draws := rfl

/-! ## s.skipIf f -/

@[simp] theorem skipIf_v : (s.skipIf f).v = s.v := by cases f <;> rfl

@[simp] theorem skipIf_i : (s.skipIf f).i = s.i := by cases f <;> rfl

@[simp] theorem skipIf_pc : (s.skipIf f).pc = if f then s.pc + 2#16 else s.pc := by cases f <;> rfl

@[simp] theorem skipIf_sp : (s.skipIf f).sp = s.sp := by cases f <;> rfl

@[simp] theorem skipIf_stack : (s.skipIf f).stack = s.stack := by cases f <;> rfl

@[simp] theorem skipIf_dt : (s.skipIf f).dt = s.dt := by cases f <;> rfl

@[simp] theorem skipIf_st : (s.skipIf f).st = s.st := by cases f <;> rfl

@[simp] theorem skipIf_key : (s.skipIf f).key = s.key := by cases f <;> rfl

@[simp] theorem skipIf_fb : (s.skipIf f).fb = s.fb := by cases f <;> rfl

@[simp] theorem skipIf_mem : (s.skipIf f).mem = s.mem := by cases f <;> rfl

@[simp] theorem skipIf_quirk : (s.skipIf f).quirk = s.quirk := by cases f <;> rfl

@[simp] theorem skipIf_halted : (s.skipIf f).halted = s.halted := by cases f <;> rfl

@[simp] theorem skipIf_fault : (s.skipIf f).fault = s.fault := by cases f <;> rfl

@[simp] theorem skipIf_draws : (s.skipIf f).draws = s.draws := by cases f <;> rfl

/-! ## s.setFlag f -/

@[simp] theorem setFlag_i : (s.setFlag f).i = s.i := rfl

@[simp] theorem setFlag_pc : (s.setFlag f).pc = s.pc := rfl

@[simp] theorem setFlag_sp : (s.setFlag f).sp = s.sp := rfl

@[simp] theorem setFlag_stack : (s.setFlag f).stack = s.stack := rfl

@[simp] theorem setFlag_dt : (s.setFlag f).dt = s.dt := rfl

@[simp] theorem setFlag_st : (s.setFlag f).st = s.st := rfl

@[simp] theorem setFlag_key : (s.setFlag f).key = s.key := rfl

@[simp] theorem setFlag_fb : (s.setFlag f).fb = s.fb := rfl

@[simp] theorem setFlag_mem : (s.setFlag f).mem = s.mem := rfl

@[simp] theorem setFlag_quirk : (s.setFlag f).quirk = s.quirk := rfl

@[simp] theorem setFlag_halted : (s.setFlag f).halted = s.halted := rfl

@[simp] theorem setFlag_fault : (s.setFlag f).fault = s.fault := rfl

@[simp] theorem setFlag_draws : (s.setFlag f).draws = s.draws := rfl

/-! ## s.setResultFlag x b f -/

@[simp] theorem setResultFlag_i : (s.setResultFlag x b f).i = s.i := rfl

@[simp] theorem setResultFlag_pc : (s.setResultFlag x b f).pc = s.pc := rfl

@[simp] theorem setResultFlag_sp : (s.setResultFlag x b f).sp = s.sp := rfl

@[simp] theorem setResultFlag_stack : (s.setResultFlag x b f).stack = s.stack := rfl

@[simp] theorem setResultFlag_dt : (s.setResultFlag x b f).dt = s.dt := rfl

@[simp] theorem setResultFlag_st : (s.setResultFlag x b f).st = s.st := rfl

@[simp] theorem setResultFlag_key : (s.setResultFlag x b f).key = s.key := rfl

@[simp] theorem setResultFlag_fb : (s.setResultFlag x b f).fb = s.fb := rfl

@[simp] theorem setResultFlag_mem : (s.setResultFlag x b f).mem = s.mem := rfl

@[simp] theorem setResultFlag_quirk : (s.setResultFlag x b f).quirk = s.quirk := rfl

@[simp] theorem setResultFlag_halted : (s.setResultFlag x b f).halted = s.halted := rfl

@[simp] theorem setResultFlag_fault : (s.setResultFlag x b f).fault = s.fault := rfl

@[simp] theorem setResultFlag_draws : (s.setResultFlag x b f).draws = s.draws := rfl

/-! ## takeFatal op r s -/

@[simp] theorem takeFatal_v : (takeFatal op r s).v = s.v := rfl

@[simp] theorem takeFatal_i : (takeFatal op r s).i = s.i := rfl

@[simp] theorem takeFatal_pc : (takeFatal op r s).pc = s.pc := rfl

@[simp] theorem takeFatal_sp : (takeFatal op r s).sp = s.sp := rfl

@[simp] theorem takeFatal_stack : (takeFatal op r s).stack = s.stack := rfl

@[simp] theorem takeFatal_dt : (takeFatal op r s).dt = s.dt := rfl

@[simp] theorem takeFatal_st : (takeFatal op r s).st = s.st := rfl

@[simp] theorem takeFatal_key : (takeFatal op r s).key = s.key := rfl

@[simp] theorem takeFatal_fb : (takeFatal op r s).fb = s.fb := rfl

@[simp] theorem takeFatal_mem : (takeFatal op r s).mem = s.mem := rfl

@[simp] theorem takeFatal_quirk : (takeFatal op r s).quirk = s.quirk := rfl

@[simp] theorem takeFatal_halted : (takeFatal op r s).halted = true := rfl

@[simp] theorem takeFatal_fault : (takeFatal op r s).fault = some { cause := r.cause, pc := s.pc, opcode := op, addr := r.addr } := rfl

@[simp] theorem takeFatal_draws : (takeFatal op r s).draws = s.draws := rfl

/-! ## Register reads -/

theorem getV_eq_of_v_eq {s t : State} (h : t.v = s.v) (x : Nibble) : t.getV x = s.getV x := by
  simp only [State.getV, h]

/-- A register read after a register write. -/
theorem getV_setV : (s.setV x b).getV y = if y = x then b else s.getV y := by
  simp only [State.getV, State.setV, Vector.getElem_set]
  by_cases h : y = x
  · subst h; simp
  · have : x.toNat ≠ y.toNat := fun e => h (BitVec.eq_of_toNat_eq e.symm)
    simp [h, this]

@[simp] theorem getV_setV_self : (s.setV x b).getV x = b := by simp [getV_setV]

theorem getV_setV_ne {s : State} {x y : Nibble} {b : Byte} (h : y ≠ x) : (s.setV x b).getV y = s.getV y := by
  simp [getV_setV, h]

theorem getV_setFlag : (s.setFlag f).getV y = if y = 0xF#4 then flagByte f else s.getV y := by
  simp only [State.setFlag, getV_setV]

/-- The flag is written last: it is what `VF` holds, whichever `x` is (10_state.md R23). -/
theorem getV_setResultFlag : (s.setResultFlag x b f).getV y =
    if y = 0xF#4 then flagByte f else if y = x then b else s.getV y := by
  simp only [State.setResultFlag, getV_setFlag, getV_setV]

@[simp] theorem getV_setI : (s.setI w).getV y = s.getV y := rfl

@[simp] theorem getV_jump : (s.jump w).getV y = s.getV y := rfl

@[simp] theorem getV_advance : s.advance.getV y = s.getV y := rfl

@[simp] theorem getV_rewind : s.rewind.getV y = s.getV y := rfl

@[simp] theorem getV_skipIf : (s.skipIf f).getV y = s.getV y := by cases f <;> rfl

@[simp] theorem getV_takeFatal : (takeFatal op r s).getV y = s.getV y := rfl

@[simp] theorem advance_rewind : s.advance.rewind = s := by
  simp [State.rewind, State.advance, State.jump]

end Sys2Proof.Machine
end

