-- ==== Sys2Proof/Laws/Machine.lean ====
section
/-! SUPPORT. What the shared operations of an instruction do: the register loop, the call stack, the fetch,
the end of a cycle, and one inversion lemma for `commit`, `step` and `hostStep`. -/

namespace Sys2Proof.Machine

/-! ## Frames -/

theorem onlyChanges_refl (changed : Component → Prop) (s : State) : OnlyChanges changed s s := by
  intro c _; cases c <;> rfl

/-- A fatal changes `HALTED` and `FAULT` only. -/
theorem onlyChanges_takeFatal (op : Option Word) (r : Raised) (s : State) :
    OnlyChanges (fun c => c = .halted ∨ c = .fault) s (takeFatal op r s) := by
  intro c hc; cases c <;> first | rfl | exact absurd (by simp) hc

theorem OnlyChanges.mono {p q : Component → Prop} {s t : State} (h : OnlyChanges p s t) (hpq : ∀ c, p c → q c) :
    OnlyChanges q s t := fun c hc => h c fun hp => hc (hpq c hp)

theorem takeFatal_eq_haltedWith (op : Option Word) (r : Raised) (s : State) :
    takeFatal op r s = haltedWith s r.cause op r.addr := rfl

/-- A jump or a skip after the fetch writes `PC` only. -/
theorem onlyChanges_jump (s : State) (w : Word) : OnlyChanges (fun c => c = .pc) s (s.advance.jump w) := by
  intro c hc; cases c <;> first | rfl | exact absurd rfl hc

theorem onlyChanges_skipIf (s : State) (f : Bool) : OnlyChanges (fun c => c = .pc) s (s.advance.skipIf f) := by
  cases f <;> (intro c hc; cases c <;> first | rfl | exact absurd rfl hc)

/-- A register write after the fetch writes `PC` and that register. -/
theorem onlyChanges_setV (s : State) (x : Nibble) (b : Byte) :
    OnlyChanges (fun c => c = .pc ∨ c = .v x) s (s.advance.setV x b) := by
  intro c hc
  cases c with
  | v y => exact getV_setV_ne fun e => hc (by simp [e])
  | pc => exact absurd (.inl rfl) hc
  | _ => rfl

/-- A result and its flag after the fetch write `PC`, that register and `VF`. -/
theorem onlyChanges_setResultFlag (s : State) (x : Nibble) (b : Byte) (f : Bool) :
    OnlyChanges (fun c => c = .pc ∨ c = .v x ∨ c = .v 0xF#4) s (s.advance.setResultFlag x b f) := by
  intro c hc
  cases c with
  | v y =>
    simp only [Unchanged, getV_setResultFlag, getV_advance]
    rw [if_neg fun e => hc (by simp [e]), if_neg fun e => hc (by simp [e])]
  | pc => exact absurd (.inl rfl) hc
  | _ => rfl

/-- A write of `I` after the fetch writes `PC` and `I`. -/
theorem onlyChanges_setI (s : State) (w : Word) :
    OnlyChanges (fun c => c = .pc ∨ c = .i) s (s.advance.setI w) := by
  intro c hc; cases c <;> first | rfl | exact absurd (by simp) hc

/-! ## Registers -/

/-- The register loop: `V[k], V[k+1], ...` receive the bytes, the others stay. -/
theorem writeRegs_get (v : Vector Byte 16) (k : Nat) (bs : List Byte) (j : Nat) (hj : j < 16) :
    (writeRegs v k bs)[j] = if h : k ≤ j ∧ j < k + bs.length then bs[j - k] else v[j] := by
  induction bs generalizing v k with
  | nil => simp [writeRegs, show ¬ (k ≤ j ∧ j < k) by omega]
  | cons b bs ih =>
    rw [writeRegs, ih]
    by_cases h : k + 1 ≤ j ∧ j < k + 1 + bs.length
    · have hidx : j - k = (j - (k + 1)) + 1 := by omega
      rw [dif_pos h, dif_pos (by simp; omega)]
      simp [hidx]
    · rw [dif_neg h, Vector.getElem_setIfInBounds]
      by_cases hk : k = j
      · subst hk; simp
      · rw [if_neg hk, dif_neg (by simp; omega)]

@[simp] theorem firstRegs_length (s : State) (x : Nibble) : (s.firstRegs x).length = x.toNat + 1 := by
  have := x.isLt
  simp [State.firstRegs]; omega

theorem firstRegs_get (s : State) (x : Nibble) (k : Nat) (hk : k < (s.firstRegs x).length) :
    (s.firstRegs x)[k] = s.getV (BitVec.ofNat 4 k) := by
  have h : k < x.toNat + 1 := by simpa using hk
  have := x.isLt
  have hm : k % 16 = k := by omega
  simp [State.firstRegs, State.getV, hm]

@[simp] theorem decimalDigits_length (b : Byte) : (decimalDigits b).length = 3 := rfl

/-! ## Memory transfer -/

/-- A store at `I` that fits: only the stored bytes change, and on a canonical memory they read back. -/
theorem storeAtI_ok (s : State) (bs : List Byte) (hf : fontSize ≤ s.i.toNat)
    (hl : s.i.toNat + bs.length ≤ memSize) :
    ∃ m, storeAtI bs s = .ok { s with mem := m } ∧
      (∀ b, b < s.i.toNat ∨ s.i.toNat + bs.length ≤ b → m.read b = s.mem.read b) ∧
      (s.mem.wf → m.wf ∧ ∀ (k : Nat) (hk : k < bs.length), m.read (s.i.toNat + k) = bs[k]) := by
  obtain ⟨m, hm, h⟩ := storeBytes_ok s.mem s.i.toNat bs (.inr ⟨hf, hl⟩)
  exact ⟨m, by simp [storeAtI, hm], h⟩

/-- A load at `I` that fits: `V0..Vx` receive the bytes, the registers above stay. -/
theorem loadFromI_ok (x : Nibble) (s : State) (h : s.i.toNat + x.toNat < memSize) :
    ∃ v, loadFromI x s = .ok { s with v := v } ∧
      ∀ y : Nibble, v[y.toNat] = if y.toNat ≤ x.toNat then s.mem.read (s.i.toNat + y.toNat) else s.getV y := by
  refine ⟨writeRegs s.v 0 ((List.range (x.toNat + 1)).map fun k => s.mem.read (s.i.toNat + k)), ?_, fun y => ?_⟩
  · simp only [loadFromI, loadBytes_ok s.mem s.i.toNat (x.toNat + 1) (.inr (by omega))]
  · rw [writeRegs_get]
    by_cases hy : y.toNat ≤ x.toNat
    · rw [dif_pos (by simp; omega), if_pos hy]; simp
    · rw [dif_neg (by simp; omega), if_neg hy]; rfl

/-! ## Call stack -/

/-- A push is refused exactly when `SP = 15`. -/
theorem spPush_eq_none_iff (s : State) : spPush s.sp = none ↔ s.spInt = 15 := by
  unfold State.spInt
  generalize s.sp = q
  revert q; decide

/-- The slot a push writes is the one after the top. -/
theorem spPush_spInt {s : State} {k : Fin 16} (h : spPush s.sp = some k) : (k.val : Int) = s.spInt + 1 := by
  unfold State.spInt
  generalize s.sp = q at h
  revert q k; decide

theorem spPop_spPush (sp : Option (Fin 16)) (k : Fin 16) (h : spPush sp = some k) : spPop k = sp := by
  revert sp k; decide

/-- A pop lowers `SP` by 1. -/
theorem spPop_int (j : Fin 16) :
    (match spPop j with | none => (-1 : Int) | some k => (k.val : Int)) = (j.val : Int) - 1 := by
  revert j; decide

theorem spInt_none {s : State} (h : s.sp = none) : s.spInt = -1 := by simp [State.spInt, h]

theorem spInt_some {s : State} {j : Fin 16} (h : s.sp = some j) : s.spInt = j.val := by simp [State.spInt, h]

/-! ## Fetch -/

/-- The fetch inside memory reads the two bytes big-endian. -/
theorem fetch_ok (s : State) (h : s.pc.toNat + 1 < memSize) :
    fetch s = .ok (opcodeOf (s.mem.read s.pc.toNat) (s.mem.read (s.pc.toNat + 1))) := by
  rw [fetch, memRead_ok (by omega)]; simp only; rw [memRead_ok h]

/-- The fetch past the end of memory raises the fatal of the first byte that is not present. -/
theorem fetch_error (s : State) (h : memSize ≤ s.pc.toNat + 1) :
    fetch s = .error ⟨.memBounds, some (max s.pc.toNat memSize)⟩ := by
  by_cases ha : memSize ≤ s.pc.toNat
  · rw [fetch, memRead_error ha, Nat.max_eq_left ha]
  · rw [fetch, memRead_ok (by omega)]; simp only
    rw [memRead_error h, Nat.max_eq_right (by omega), show s.pc.toNat + 1 = memSize by omega]

/-! ## Inversion -/

/-- A committed cycle ends in the instruction's result or in the fatal it raised. -/
theorem commit_cases {op : Word} {s t : State} {r : Except Raised State} (h : commit op s r = .next t) :
    r = .ok t ∨ ∃ e, r = .error e ∧ t = takeFatal (some op) e s := by
  cases r with
  | ok u => left; simpa [commit] using h
  | error e => right; exact ⟨e, rfl, by simpa [commit] using h.symm⟩

theorem commit_next (op : Word) (s : State) (r : Except Raised State) : ∃ t, commit op s r = .next t := by
  cases r <;> exact ⟨_, rfl⟩

/-- What a step can be: nothing on a halted block, a fetch fatal, a decode fatal, or the instruction. -/
theorem step_cases {s : State} {o : Host.Outcome State Fault Refusal} (h : step s = o) :
    (s.halted = true ∧ o = .next s) ∨
    (s.halted = false ∧ ∃ r, fetch s = .error r ∧ o = .next (takeFatal none r s)) ∨
    (s.halted = false ∧ ∃ op, fetch s = .ok op ∧ decode op = .error (.illegalOpcode op) ∧
      o = .next (takeFatal (some op) ⟨.illegalOpcode, none⟩ s)) ∨
    (s.halted = false ∧ ∃ op i, fetch s = .ok op ∧ decode op = .ok i ∧ o = exec i s) := by
  subst h
  unfold step
  by_cases hh : s.halted = true
  · simp [hh]
  · rw [if_neg hh]
    have hf : s.halted = false := by simpa using hh
    cases hfe : fetch s with
    | error r => exact .inr (.inl ⟨hf, r, rfl, rfl⟩)
    | ok op =>
      simp only
      cases hd : decode op with
      | error e =>
        have he : e = .illegalOpcode op := by
          simp only [decode, decodeAlu, decodeKeySkip, decodeMisc] at hd
          split at hd <;> (try split at hd) <;> (try split at hd) <;> simp_all
        subst he
        exact .inr (.inr (.inl ⟨hf, op, rfl, hd, rfl⟩))
      | ok i => exact .inr (.inr (.inr ⟨hf, op, i, rfl, hd, rfl⟩))

/-- A step of a running core whose fetch fails takes the fetch fatal. -/
theorem step_fetch_error {s : State} (hh : s.halted = false) (h : memSize ≤ s.pc.toNat + 1) :
    step s = .next (takeFatal none ⟨.memBounds, some (max s.pc.toNat memSize)⟩ s) := by
  simp [step, hh, fetch_error s h]

/-- A host operation that answers a next state is a cycle, a tick, a key event or a read. -/
theorem hostStep_cases {op : HostOp} {s t : State} (h : hostStep op s = .next t) :
    (op = .cycle ∧ step s = .next t) ∨ (op = .tickTimers ∧ t = tickTimers s) ∨
    ((∃ k, op = .setKey k) ∧ ∃ k, t = { s with key := k }) ∨ t = s := by
  cases op with
  | cycle => exact .inl ⟨rfl, h⟩
  | tickTimers => exact .inr (.inl ⟨rfl, by cases h; rfl⟩)
  | setKey k =>
    refine .inr (.inr (.inl ⟨⟨k, rfl⟩, ?_⟩))
    cases k with
    | none => exact ⟨none, by cases h; rfl⟩
    | some n =>
      simp only [hostStep, setKey] at h
      split at h
      · exact ⟨_, by cases h; rfl⟩
      · cases h
  | readFramebuffer => exact .inr (.inr (.inr (by cases h; rfl)))
  | snapshot => exact .inr (.inr (.inr (by cases h; rfl)))
  | readStatus => exact .inr (.inr (.inr (by cases h; rfl)))

/-- A construction that is not refused: the program fits, and the session is the reset state with the
constructed memory, which is canonical, and the given `QUIRK`. -/
theorem construct_cases {program : List Byte} {quirk : Bool} {font : Vector Byte 80} {fill : Nat → Byte}
    {s : State} (h : construct program quirk font fill = .next s) :
    progBase + program.length ≤ memSize ∧ s.mem.wf ∧
      (∀ a, a < memSize → s.mem.read a = constructByte program font fill a) ∧
      s = { State.reset with mem := s.mem, quirk := quirk } := by
  unfold construct at h
  split at h
  · cases h
  · injection h with h
    refine ⟨by omega, ?_, fun a ha => ?_, ?_⟩
    · rw [← h]; exact Memory.wf_tabulate _
    · rw [← h]; simp only; rw [Memory.read_tabulate, if_pos ha]
    · rw [← h]

/-- The induction over a host schedule: what holds at the start and is kept by every host operation holds
at the end. -/
theorem runSession_induct {P : State → Prop}
    (hstep : ∀ op s t, P s → hostStep op s = .next t → P t) (ops : List HostOp) {s t : State} (hs : P s)
    (h : runSession ops s = .next t) : P t := by
  induction ops generalizing s with
  | nil => cases h; exact hs
  | cons op ops ih =>
    rw [runSession] at h
    cases ho : hostStep op s with
    | next u => rw [ho] at h; exact ih (hstep op s u hs ho) h
    | fault r => rw [ho] at h; cases h
    | refused r => rw [ho] at h; cases h

end Sys2Proof.Machine
end

