-- ==== Sys2Proof/Laws/PerInstr.lean ====
section
/-! SUPPORT. The family TableRow, one lemma for each constructor: an instruction's word lies in its row of
the opcode map (30_encoding.md R77). -/

namespace Sys2Proof.Laws.TableRow

/-- The word of `i` matches the mask and match of `i`'s row (30_encoding.md R77). -/
def Statement (i : Instr) : Prop := encode i &&& (opcodeRow i).1 = (opcodeRow i).2

/-- Masking concatenated fields masks each field. -/
theorem append_and {m n : Nat} (a c : BitVec m) (b d : BitVec n) :
    (a ++ b) &&& (c ++ d) = (a &&& c) ++ (b &&& d) := by
  ext i hi
  simp only [BitVec.getElem_and, BitVec.getElem_append]
  split <;> rfl

theorem nibble_and_ones (f : Nibble) : f &&& 0xF#4 = f := BitVec.and_allOnes

theorem byte_and_ones (b : Byte) : b &&& 0xFF#8 = b := BitVec.and_allOnes

theorem packNnn_and (f g : Nibble) (a b : Addr) : packNnn f a &&& packNnn g b = packNnn (f &&& g) (a &&& b) :=
  append_and (m := 4) (n := 12) f g a b

theorem packXkk_and (f g x z : Nibble) (a b : Byte) :
    packXkk f x a &&& packXkk g z b = packXkk (f &&& g) (x &&& z) (a &&& b) := by
  refine (append_and (m := 4) (n := 12) _ _ _ _).trans ?_
  rw [append_and]; rfl

theorem packXyn_and (f g x z y u n k : Nibble) :
    packXyn f x y n &&& packXyn g z u k = packXyn (f &&& g) (x &&& z) (y &&& u) (n &&& k) := by
  rw [packXyn_eq, packXyn_eq, packXkk_and]
  exact congrArg _ (append_and (m := 4) (n := 4) _ _ _ _)

/-- Format `NNN` under the mask F000. -/
theorem packNnn_row (f : Nibble) (a : Addr) : packNnn f a &&& 0xF000#16 = packNnn f 0#12 := by
  rw [show (0xF000#16 : Word) = packNnn 0xF#4 0#12 from rfl, packNnn_and]
  congr 1 <;> simp [nibble_and_ones]

/-- Format `XKK` under the mask F000. -/
theorem packXkk_row (f x : Nibble) (kk : Byte) : packXkk f x kk &&& 0xF000#16 = packXkk f 0#4 0#8 := by
  rw [show (0xF000#16 : Word) = packXkk 0xF#4 0#4 0#8 from rfl, packXkk_and]
  congr 1 <;> simp [nibble_and_ones]

/-- Format `XYN` under the mask F00F, the sub-function fixed. -/
theorem packXyn_row (f x y n : Nibble) : packXyn f x y n &&& 0xF00F#16 = packXyn f 0#4 0#4 n := by
  rw [show (0xF00F#16 : Word) = packXyn 0xF#4 0#4 0#4 0xF#4 from rfl, packXyn_and]
  congr 1 <;> simp [nibble_and_ones]

/-- Format `XYN` under the mask F000: `DXYN`, whose `n` is free. -/
theorem packXyn_row_free (f x y n : Nibble) : packXyn f x y n &&& 0xF000#16 = packXyn f 0#4 0#4 0#4 := by
  rw [show (0xF000#16 : Word) = packXyn 0xF#4 0#4 0#4 0#4 from rfl, packXyn_and]
  congr 1 <;> simp [nibble_and_ones]

/-- Format `XFN` under the mask F0FF, the sub-function fixed. -/
theorem packXfn_row (f x : Nibble) (kk : Byte) : packXkk f x kk &&& 0xF0FF#16 = packXkk f 0#4 kk := by
  rw [show (0xF0FF#16 : Word) = packXkk 0xF#4 0#4 0xFF#8 from rfl, packXkk_and]
  congr 1 <;> simp [nibble_and_ones, byte_and_ones]

theorem cls : Statement .cls := rfl

theorem ret : Statement .ret := rfl

theorem sys (nnn : Addr) : Statement (.sys nnn) := packNnn_row 0x0#4 nnn

theorem jp (nnn : Addr) : Statement (.jp nnn) := packNnn_row 0x1#4 nnn

theorem call (nnn : Addr) : Statement (.call nnn) := packNnn_row 0x2#4 nnn

theorem seImm (x : Nibble) (kk : Byte) : Statement (.seImm x kk) := packXkk_row 0x3#4 x kk

theorem sneImm (x : Nibble) (kk : Byte) : Statement (.sneImm x kk) := packXkk_row 0x4#4 x kk

theorem seReg (x : Nibble) (y : Nibble) : Statement (.seReg x y) := packXyn_row 0x5#4 x y 0x0#4

theorem ldImm (x : Nibble) (kk : Byte) : Statement (.ldImm x kk) := packXkk_row 0x6#4 x kk

theorem addImm (x : Nibble) (kk : Byte) : Statement (.addImm x kk) := packXkk_row 0x7#4 x kk

theorem ldReg (x : Nibble) (y : Nibble) : Statement (.ldReg x y) := packXyn_row 0x8#4 x y 0x0#4

theorem orReg (x : Nibble) (y : Nibble) : Statement (.orReg x y) := packXyn_row 0x8#4 x y 0x1#4

theorem andReg (x : Nibble) (y : Nibble) : Statement (.andReg x y) := packXyn_row 0x8#4 x y 0x2#4

theorem xorReg (x : Nibble) (y : Nibble) : Statement (.xorReg x y) := packXyn_row 0x8#4 x y 0x3#4

theorem addReg (x : Nibble) (y : Nibble) : Statement (.addReg x y) := packXyn_row 0x8#4 x y 0x4#4

theorem subReg (x : Nibble) (y : Nibble) : Statement (.subReg x y) := packXyn_row 0x8#4 x y 0x5#4

theorem shr (x : Nibble) (y : Nibble) : Statement (.shr x y) := packXyn_row 0x8#4 x y 0x6#4

theorem subnReg (x : Nibble) (y : Nibble) : Statement (.subnReg x y) := packXyn_row 0x8#4 x y 0x7#4

theorem shl (x : Nibble) (y : Nibble) : Statement (.shl x y) := packXyn_row 0x8#4 x y 0xE#4

theorem sneReg (x : Nibble) (y : Nibble) : Statement (.sneReg x y) := packXyn_row 0x9#4 x y 0x0#4

theorem ldI (nnn : Addr) : Statement (.ldI nnn) := packNnn_row 0xA#4 nnn

theorem jpV0 (nnn : Addr) : Statement (.jpV0 nnn) := packNnn_row 0xB#4 nnn

theorem rnd (x : Nibble) (kk : Byte) : Statement (.rnd x kk) := packXkk_row 0xC#4 x kk

theorem drw (x : Nibble) (y : Nibble) (n : Nibble) : Statement (.drw x y n) := packXyn_row_free 0xD#4 x y n

theorem skp (x : Nibble) : Statement (.skp x) := packXfn_row 0xE#4 x 0x9E#8

theorem sknp (x : Nibble) : Statement (.sknp x) := packXfn_row 0xE#4 x 0xA1#8

theorem ldVxDt (x : Nibble) : Statement (.ldVxDt x) := packXfn_row 0xF#4 x 0x07#8

theorem ldVxK (x : Nibble) : Statement (.ldVxK x) := packXfn_row 0xF#4 x 0x0A#8

theorem ldDtVx (x : Nibble) : Statement (.ldDtVx x) := packXfn_row 0xF#4 x 0x15#8

theorem ldStVx (x : Nibble) : Statement (.ldStVx x) := packXfn_row 0xF#4 x 0x18#8

theorem addIVx (x : Nibble) : Statement (.addIVx x) := packXfn_row 0xF#4 x 0x1E#8

theorem ldFVx (x : Nibble) : Statement (.ldFVx x) := packXfn_row 0xF#4 x 0x29#8

theorem ldBVx (x : Nibble) : Statement (.ldBVx x) := packXfn_row 0xF#4 x 0x33#8

theorem ldMemVx (x : Nibble) : Statement (.ldMemVx x) := packXfn_row 0xF#4 x 0x55#8

theorem ldVxMem (x : Nibble) : Statement (.ldVxMem x) := packXfn_row 0xF#4 x 0x65#8

end Sys2Proof.Laws.TableRow
end

