-- ==== Sys2Proof/Tests/Slice0.lean ====
section
/-! SUPPORT. The model's own tests. Every expected value is one of the spec's: the opcode map
(30_encoding.md R75, R77) or a vector of 95_test_vectors.md, named at each test. -/

open Sys2Proof Sys2Proof.Machine

namespace Sys2Proof.Tests

/-! ## Small states -/

/-- A fresh session with the listed registers set. -/
def withV (l : List (Nibble × Byte)) : State := l.foldl (fun s p => s.setV p.1 p.2) State.reset

/-- The listed bytes put into memory from `a` up. -/
def withBytes : Nat → List Byte → State → State
  | _, [], s => s
  | a, b :: bs, s => withBytes (a + 1) bs { s with mem := s.mem.write a b }

/-- The state a host operation answers with (`s` itself if it stops). -/
def afterOp (op : HostOp) (s : State) : State :=
  match hostStep op s with
  | .next t => t
  | .fault _ => s
  | .refused _ => s

/-- The state one cycle leaves, with the word placed where it fetches. -/
def after (w : Nat) (s : State) : State := afterOp .cycle (s.withFetchWord 16 w)

/-- The record `FAULT = (cause, pc, opcode, addr)`. -/
def faultOf (cause : FatalCause) (pc : Word) (opcode : Option Word) (addr : Option Nat) : Option FaultRecord :=
  some { cause := cause, pc := pc, opcode := opcode, addr := addr }

/-! ## Well-formedness (30_encoding.md R77, R78): the ill-formed terms are refused -/

theorem test_wellFormed_refuses_sys_cls : (Instr.sys 0x0E0#12).wellFormed = false := by decide
theorem test_wellFormed_refuses_sys_ret : (Instr.sys 0x0EE#12).wellFormed = false := by decide
theorem test_wellFormed_admits_sys : (Instr.sys 0x0E1#12).wellFormed = true := by decide
theorem test_wellFormed_admits_vf : (Instr.drw 0xF#4 0xF#4 0x0#4).wellFormed = true := by decide

/-! ## Decoding: one word of each row, written bit by bit from 30_encoding.md R72 and R77 -/

theorem test_decode_cls : decode 0b0000_0000_1110_0000#16 = .ok .cls := by decide
theorem test_decode_ret : decode 0b0000_0000_1110_1110#16 = .ok .ret := by decide
theorem test_decode_sys : decode 0b0000_0001_0010_0011#16 = .ok (.sys 0x123#12) := by decide
theorem test_decode_jp : decode 0b0001_0010_0000_0101#16 = .ok (.jp 0x205#12) := by decide
theorem test_decode_call : decode 0b0010_1010_1011_1100#16 = .ok (.call 0xABC#12) := by decide
theorem test_decode_seImm : decode 0b0011_0101_0001_0010#16 = .ok (.seImm 0x5#4 0x12#8) := by decide
theorem test_decode_sneImm : decode 0b0100_1110_1000_0001#16 = .ok (.sneImm 0xE#4 0x81#8) := by decide
theorem test_decode_seReg : decode 0b0101_0001_0010_0000#16 = .ok (.seReg 0x1#4 0x2#4) := by decide
theorem test_decode_ldImm : decode 0b0110_1010_0100_0010#16 = .ok (.ldImm 0xA#4 0x42#8) := by decide
theorem test_decode_addImm : decode 0b0111_0010_1111_1110#16 = .ok (.addImm 0x2#4 0xFE#8) := by decide
theorem test_decode_ldReg : decode 0b1000_0001_0011_0000#16 = .ok (.ldReg 0x1#4 0x3#4) := by decide
theorem test_decode_orReg : decode 0b1000_0001_0010_0001#16 = .ok (.orReg 0x1#4 0x2#4) := by decide
theorem test_decode_andReg : decode 0b1000_1100_0111_0010#16 = .ok (.andReg 0xC#4 0x7#4) := by decide
theorem test_decode_xorReg : decode 0b1000_1101_1011_0011#16 = .ok (.xorReg 0xD#4 0xB#4) := by decide
theorem test_decode_addReg : decode 0b1000_0000_0001_0100#16 = .ok (.addReg 0x0#4 0x1#4) := by decide
theorem test_decode_subReg : decode 0b1000_1111_0001_0101#16 = .ok (.subReg 0xF#4 0x1#4) := by decide
theorem test_decode_shr : decode 0b1000_0011_1111_0110#16 = .ok (.shr 0x3#4 0xF#4) := by decide
theorem test_decode_subnReg : decode 0b1000_0100_0010_0111#16 = .ok (.subnReg 0x4#4 0x2#4) := by decide
theorem test_decode_shl : decode 0b1000_0101_0000_1110#16 = .ok (.shl 0x5#4 0x0#4) := by decide
theorem test_decode_sneReg : decode 0b1001_0001_0010_0000#16 = .ok (.sneReg 0x1#4 0x2#4) := by decide
theorem test_decode_ldI : decode 0b1010_0011_0000_0001#16 = .ok (.ldI 0x301#12) := by decide
theorem test_decode_jpV0 : decode 0b1011_1111_0001_0000#16 = .ok (.jpV0 0xF10#12) := by decide
theorem test_decode_rnd : decode 0b1100_0011_0000_1111#16 = .ok (.rnd 0x3#4 0x0F#8) := by decide
theorem test_decode_drw : decode 0b1101_0001_0010_0101#16 = .ok (.drw 0x1#4 0x2#4 0x5#4) := by decide
theorem test_decode_skp : decode 0b1110_0001_1001_1110#16 = .ok (.skp 0x1#4) := by decide
theorem test_decode_sknp : decode 0b1110_0001_1010_0001#16 = .ok (.sknp 0x1#4) := by decide
theorem test_decode_ldVxDt : decode 0b1111_0011_0000_0111#16 = .ok (.ldVxDt 0x3#4) := by decide
theorem test_decode_ldVxK : decode 0b1111_0001_0000_1010#16 = .ok (.ldVxK 0x1#4) := by decide
theorem test_decode_ldDtVx : decode 0b1111_0010_0001_0101#16 = .ok (.ldDtVx 0x2#4) := by decide
theorem test_decode_ldStVx : decode 0b1111_0010_0001_1000#16 = .ok (.ldStVx 0x2#4) := by decide
theorem test_decode_addIVx : decode 0b1111_0010_0001_1110#16 = .ok (.addIVx 0x2#4) := by decide
theorem test_decode_ldFVx : decode 0b1111_0100_0010_1001#16 = .ok (.ldFVx 0x4#4) := by decide
theorem test_decode_ldBVx : decode 0b1111_0110_0011_0011#16 = .ok (.ldBVx 0x6#4) := by decide
theorem test_decode_ldMemVx : decode 0b1111_1000_0101_0101#16 = .ok (.ldMemVx 0x8#4) := by decide
theorem test_decode_ldVxMem : decode 0b1111_0010_0110_0101#16 = .ok (.ldVxMem 0x2#4) := by decide

/-- The first illegal word of each table row of 30_encoding.md R79, and 0x812F. -/
theorem test_decode_illegal :
    decode 0x5121#16 = .error (.illegalOpcode 0x5121#16) ∧ decode 0x8128#16 = .error (.illegalOpcode 0x8128#16) ∧
    decode 0x812F#16 = .error (.illegalOpcode 0x812F#16) ∧ decode 0x9121#16 = .error (.illegalOpcode 0x9121#16) ∧
    decode 0xE1A2#16 = .error (.illegalOpcode 0xE1A2#16) ∧ decode 0xF100#16 = .error (.illegalOpcode 0xF100#16) := by
  decide

/-- The legacy calls next to the two system calls (30_encoding.md R78). -/
theorem test_decode_legacy :
    decode 0x0000#16 = .ok (.sys 0x000#12) ∧ decode 0x00E1#16 = .ok (.sys 0x0E1#12) ∧
    decode 0x00EF#16 = .ok (.sys 0x0EF#12) ∧ decode 0x0FFF#16 = .ok (.sys 0xFFF#12) := by decide

theorem test_decodeTableWord :
    decodeTableWord 16 0xD125 = some (.drw 0x1#4 0x2#4 0x5#4) ∧ decodeTableWord 16 0x5121 = none := by decide

/-- A word placed for the fetch runs at once, also when two bytes do not fit at `PC` and on a halted block
(log entry 12). -/
theorem test_withFetchWord :
    (after 0x6A42 State.reset).getV 0xA#4 = 0x42#8 ∧
    (after 0x6A42 { State.reset with pc := 0xFFE#16 }).getV 0xA#4 = 0x42#8 ∧
    (after 0x6A42 (after 0x0123 State.reset)).getV 0xA#4 = 0x42#8 := by decide

/-! ## One step of each instruction (95_test_vectors.md) -/

/-- L2-draw: `FB` all 0, `VF` kept. -/
theorem test_cls :
    (after 0x00E0 { withV [(0xF, 0x33)] with fb := .replicate 32 0xF0#64 }).fb = .replicate 32 0#64 ∧
    (after 0x00E0 (withV [(0xF, 0x33)])).getV 0xF#4 = 0x33#8 := by decide

/-- L2-flow: the pop of the last frame; the entry keeps its value (L1-7). -/
theorem test_ret :
    let t := after 0x00EE { State.reset with sp := some 0, stack := .replicate 16 0x0FFF#16 }
    t.pc = 0x0FFF#16 ∧ t.sp = none ∧ t.stack = .replicate 16 0x0FFF#16 := by decide

/-- L2-fetch, row `00EE`. -/
theorem test_ret_underflow :
    after 0x00EE State.reset = { State.reset.withFetchWord 16 0x00EE with
      halted := true, fault := faultOf .stackUnderflow 0x200#16 (some 0x00EE#16) none } := by decide

/-- R104, the example: `0123` at 0x204. -/
theorem test_sys :
    let t := after 0x0123 { State.reset with pc := 0x204#16 }
    t.halted = true ∧ t.fault = faultOf .legacyCall 0x204#16 (some 0x0123#16) none ∧ t.pc = 0x204#16 :=
  by decide

/-- L1-6: an odd target. -/
theorem test_jp :
    (after 0x1205 State.reset).pc = 0x205#16 := by decide

/-- L2-flow, row `SP = 14`. -/
theorem test_call :
    let t := after 0x2300 { State.reset with sp := some 14 }
    t.sp = some 15 ∧ t.stack[15] = 0x202#16 ∧ t.pc = 0x300#16 := by decide

/-- L2-flow, row `SP = 15`. -/
theorem test_call_overflow :
    let t := after 0x2300 { State.reset with sp := some 15 }
    t.fault = faultOf .stackOverflow 0x200#16 (some 0x2300#16) none ∧ t.sp = some 15 ∧ t.pc = 0x200#16 :=
  by decide

/-- L2-skip. -/
theorem test_seImm :
    (after 0x3510 (withV [(5, 0x10)])).pc = 0x204#16 ∧ (after 0x3511 (withV [(5, 0x10)])).pc = 0x202#16 :=
  by decide

/-- L2-skip. -/
theorem test_sneImm :
    (after 0x4510 (withV [(5, 0x10)])).pc = 0x202#16 ∧ (after 0x4511 (withV [(5, 0x10)])).pc = 0x204#16 :=
  by decide

/-- L2-skip. -/
theorem test_seReg :
    (after 0x5120 (withV [(1, 0x7F), (2, 0x7F)])).pc = 0x204#16 ∧
    (after 0x5120 (withV [(1, 0x7F), (2, 0x80)])).pc = 0x202#16 := by decide

/-- L2-skip. -/
theorem test_sneReg :
    (after 0x9120 (withV [(1, 1), (2, 2)])).pc = 0x204#16 ∧ (after 0x9110 (withV [(1, 1)])).pc = 0x202#16 :=
  by decide

/-- L2-imm. -/
theorem test_ldImm :
    (after 0x6FFF State.reset).getV 0xF#4 = 0xFF#8 := by decide

/-- L2-imm: a wrap without a flag, and `VF` as destination. -/
theorem test_addImm :
    (after 0x7201 (withV [(2, 0xFF)])).getV 0x2#4 = 0x00#8 ∧ (after 0x7201 (withV [(2, 0xFF)])).getV 0xF#4 = 0x00#8 ∧
    (after 0x7F03 (withV [(0xF, 0xFE)])).getV 0xF#4 = 0x01#8 := by decide

/-- L2-logic. -/
theorem test_ldReg :
    (after 0x8130 (withV [(3, 0x99)])).getV 0x1#4 = 0x99#8 := by decide

/-- L2-logic: `VF` not cleared. -/
theorem test_orReg :
    let t := after 0x8121 (withV [(1, 0x0F), (2, 0xF0), (0xF, 0x01)])
    t.getV 0x1#4 = 0xFF#8 ∧ t.getV 0xF#4 = 0x01#8 := by decide

/-- L2-logic. -/
theorem test_andReg :
    (after 0x8122 (withV [(1, 0x3C), (2, 0x0F)])).getV 0x1#4 = 0x0C#8 := by decide

/-- L2-logic. -/
theorem test_xorReg :
    (after 0x8123 (withV [(1, 0xFF), (2, 0x0F)])).getV 0x1#4 = 0xF0#8 := by decide

/-- L2-8XY4: a carry, and the result lost under `x = F`. -/
theorem test_addReg :
    let t := after 0x8014 (withV [(0, 0xC8), (1, 0x64)])
    t.getV 0x0#4 = 0x2C#8 ∧ t.getV 0xF#4 = 1#8 ∧
    (after 0x8F14 (withV [(0xF, 0x10), (1, 0xF5)])).getV 0xF#4 = 1#8 := by decide

/-- L2-8XY4: the addend is the old `VF`. -/
theorem test_addReg_vf_source :
    let t := after 0x81F4 (withV [(1, 0xFF), (0xF, 0x01)])
    t.getV 0x1#4 = 0x00#8 ∧ t.getV 0xF#4 = 1#8 := by decide

/-- L2-8XY5: a borrow. -/
theorem test_subReg :
    let t := after 0x8015 (withV [(0, 0x03), (1, 0x05)])
    t.getV 0x0#4 = 0xFE#8 ∧ t.getV 0xF#4 = 0#8 := by decide

/-- L2-8XY5: equal operands do not borrow. -/
theorem test_subReg_equal :
    let t := after 0x8015 (withV [(0, 0x07), (1, 0x07)])
    t.getV 0x0#4 = 0x00#8 ∧ t.getV 0xF#4 = 1#8 := by decide

/-- L2-8XY7. -/
theorem test_subnReg :
    let t := after 0x8017 (withV [(0, 0x03), (1, 0x05)])
    t.getV 0x0#4 = 0x02#8 ∧ t.getV 0xF#4 = 1#8 ∧ (after 0x8017 (withV [(0, 0xFF)])).getV 0x0#4 = 0x01#8 :=
  by decide

/-- L2-shift under `QUIRK = 0`. -/
theorem test_shr :
    let t := after 0x8016 (withV [(0, 0x01), (1, 0xFF)])
    t.getV 0x0#4 = 0x7F#8 ∧ t.getV 0xF#4 = 1#8 ∧ t.getV 0x1#4 = 0xFF#8 := by decide

/-- L2-shift under `QUIRK = 1`, and the `8F06` corner. -/
theorem test_shr_quirk :
    let t := after 0x8016 { withV [(0, 0x05), (1, 0x02)] with quirk := true }
    t.getV 0x0#4 = 0x02#8 ∧ t.getV 0xF#4 = 1#8 ∧
    (after 0x8F06 { withV [(0xF, 0x03)] with quirk := true }).getV 0xF#4 = 1#8 := by decide

/-- L2-shift, `850E` under `QUIRK = 0`. -/
theorem test_shl :
    let t := after 0x850E (withV [(0, 0xC8)])
    t.getV 0x5#4 = 0x90#8 ∧ t.getV 0xF#4 = 1#8 := by decide

/-- L2-shift under `QUIRK = 1`. -/
theorem test_shl_quirk :
    let t := after 0x801E { withV [(0, 0x81), (1, 0x40)] with quirk := true }
    t.getV 0x0#4 = 0x02#8 ∧ t.getV 0xF#4 = 1#8 := by decide

/-- L2-index: held without a fault. -/
theorem test_ldI :
    (after 0xAFFF State.reset).i = 0xFFF#16 := by decide

/-- L2-flow: not wrapped to 12 bits; the offset is `V0`. -/
theorem test_jpV0 :
    (after 0xBFFF (withV [(0, 0xFF)])).pc = 0x10FE#16 ∧ (after 0xBF00 (withV [(0xF, 0x10)])).pc = 0xF00#16 :=
  by decide

/-- L2-index: any draw under the mask 0x00. -/
theorem test_rnd_masked : (after 0xC300 State.reset).getV 0x3#4 = 0x00#8 := by
  show Config.rand8 0 &&& 0x00#8 = 0x00#8
  exact BitVec.and_zero

/-- R153: the draw is counted. -/
theorem test_rnd_counts : (after 0xC30F State.reset).draws = 1 := by decide

/-- L2-draw, `D001`: pixels (62,30) and (63,30), columns 64 and 65 clipped. -/
theorem test_drw :
    let t := after 0xD001 { withBytes 0x20A [0xF0] (withV [(0, 0x3E)]) with i := 0x20A#16 }
    fbGet t.fb 1982 = true ∧ fbGet t.fb 1983 = true ∧ fbGet t.fb 1981 = false ∧ fbGet t.fb 1920 = false ∧
    fbGet t.fb 1984 = false ∧ t.getV 0xF#4 = 0#8 := by decide

/-- L2-draw, `DFF1`: the coordinates are the old `VF`; a collision. -/
theorem test_drw_vf :
    let t := after 0xDFF1 { withBytes 0x300 [0x80] State.reset with i := 0x300#16, fb := State.reset.fb.set 0 1#64 }
    fbGet t.fb 0 = false ∧ t.getV 0xF#4 = 1#8 := by decide

/-- L2-draw, `D012` at 0xFFE, and `D015` with clipped rows. -/
theorem test_drw_bounds :
    (after 0xD012 { State.reset with i := 0xFFE#16 }).fault = faultOf .memBounds 0x200#16 (some 0xD012#16) (some 0xFFF) ∧
    (after 0xD015 { withV [(1, 31)] with i := 0xFFC#16 }).fault =
      faultOf .memBounds 0x200#16 (some 0xD015#16) (some 0xFFF) := by decide

/-- R174, R175: rows 0 and 1 of glyph 0 at (67, 33) start at (3, 1). -/
theorem test_drw_glyph :
    let t := after 0xD012 (withV [(0, 67), (1, 33)])
    t.fb[1] = 0x78#64 ∧ t.fb[2] = 0x48#64 ∧ t.fb[3] = 0#64 ∧ t.getV 0xF#4 = 0#8 := by decide

/-- L2-key. -/
theorem test_skp :
    (after 0xE09E { withV [(0, 0x07)] with key := some 7 }).pc = 0x204#16 ∧
    (after 0xE09E { withV [(0, 0x17)] with key := some 7 }).pc = 0x202#16 ∧ (after 0xE09E State.reset).pc = 0x202#16 :=
  by decide

/-- L2-key. -/
theorem test_sknp :
    (after 0xE0A1 { withV [(0, 0x07)] with key := some 7 }).pc = 0x202#16 ∧
    (after 0xE0A1 { withV [(0, 0x17)] with key := some 7 }).pc = 0x204#16 ∧ (after 0xE0A1 State.reset).pc = 0x204#16 :=
  by decide

/-- L2-timer. -/
theorem test_ldVxDt :
    (after 0xF307 { State.reset with dt := 0x3C#8 }).getV 0x3#4 = 0x3C#8 := by decide

/-- L2-key: a latched key is taken and not cleared. -/
theorem test_ldVxK :
    let t := after 0xFF0A { State.reset with key := some 0xC }
    t.getV 0xF#4 = 0x0C#8 ∧ t.key = some 0xC ∧ t.pc = 0x202#16 := by decide

/-- L1-9: no key, no change. -/
theorem test_ldVxK_waits :
    after 0xF30A State.reset = State.reset.withFetchWord 16 0xF30A := by decide

/-- L2-timer. -/
theorem test_ldDtVx :
    (after 0xF015 (withV [(0, 0x03)])).dt = 3#8 := by decide

/-- L2-timer. -/
theorem test_ldStVx :
    (after 0xF218 (withV [(2, 0x0A)])).st = 10#8 := by decide

/-- L2-index: the wrap at 16 bits; no 12-bit wrap and no flag. -/
theorem test_addIVx :
    (after 0xF01E { withV [(0, 1)] with i := 0xFFFF#16 }).i = 0x0000#16 ∧
    (after 0xF01E { withV [(0, 0x10), (0xF, 7)] with i := 0xFFE#16 }).i = 0x100E#16 ∧
    (after 0xF01E { withV [(0, 0x10), (0xF, 7)] with i := 0xFFE#16 }).getV 0xF#4 = 7#8 := by decide

/-- L2-index: not masked. -/
theorem test_ldFVx :
    (after 0xF429 (withV [(4, 0x0A)])).i = 0x032#16 ∧ (after 0xF029 (withV [(0, 0xFF)])).i = 0x4FB#16 :=
  by decide

/-- L2-mem: the digits of 254, and the top of memory. -/
theorem test_ldBVx :
    let t := after 0xF033 { withV [(0, 123)] with i := 0xFFC#16 }
    t.mem.read 0xFFC = 1#8 ∧ t.mem.read 0xFFD = 2#8 ∧ t.mem.read 0xFFE = 3#8 ∧
    (after 0xF033 { withV [(0, 0xFE)] with i := 0x300#16 }).mem.read 0x302 = 4#8 := by decide

/-- L2-mem: past the end, and in the font. -/
theorem test_ldBVx_fatal :
    (after 0xF033 { withV [(0, 123)] with i := 0xFFD#16 }).fault = faultOf .memBounds 0x200#16 (some 0xF033#16) (some 0xFFF) ∧
    (after 0xF033 { withV [(0, 123)] with i := 0xFFD#16 }).mem.read 0xFFD = 0#8 ∧
    (after 0xF033 { withV [(0, 123)] with i := 0x04E#16 }).fault =
      faultOf .fontWrite 0x200#16 (some 0xF033#16) (some 0x04E) := by decide

/-- L2-mem: `V0..V2` are stored, `V3` is not, `I` is kept. -/
theorem test_ldMemVx :
    let t := after 0xF255 { withV [(0, 1), (1, 2), (2, 3), (3, 4)] with i := 0x300#16 }
    t.mem.read 0x300 = 1#8 ∧ t.mem.read 0x302 = 3#8 ∧ t.mem.read 0x303 = 0#8 ∧ t.i = 0x300#16 := by decide

/-- L2-mem: `FF55` at 0xFF0, `F455` at 0x040. -/
theorem test_ldMemVx_fatal :
    (after 0xFF55 { State.reset with i := 0xFF0#16 }).fault = faultOf .memBounds 0x200#16 (some 0xFF55#16) (some 0xFFF) ∧
    (after 0xF455 { State.reset with i := 0x040#16 }).fault =
      faultOf .fontWrite 0x200#16 (some 0xF455#16) (some 0x040) := by decide

/-- L2-mem: glyph A. -/
theorem test_ldVxMem :
    let t := after 0xF465 { State.reset with i := 0x032#16 }
    t.getV 0x0#4 = 0xF0#8 ∧ t.getV 0x1#4 = 0x90#8 ∧ t.getV 0x4#4 = 0x90#8 ∧ t.getV 0x5#4 = 0x00#8 ∧ t.i = 0x032#16 :=
  by decide

/-- L2-mem: `FF65` at 0xFF0; no register written. -/
theorem test_ldVxMem_fatal :
    let t := after 0xFF65 { withV [(0, 0x55)] with i := 0xFF0#16 }
    t.fault = faultOf .memBounds 0x200#16 (some 0xFF65#16) (some 0xFFF) ∧ t.getV 0x0#4 = 0x55#8 := by decide

/-! ## The cycle and the host operations (95_test_vectors.md) -/

/-- L2-fetch: the top of memory. -/
theorem test_fetch_top :
    let s := withBytes 0xFFD [0x60, 0x11] State.reset
    (afterOp .cycle { s with pc := 0xFFD#16 }).getV 0x0#4 = 0x11#8 ∧
    (afterOp .cycle { s with pc := 0xFFD#16 }).pc = 0xFFF#16 ∧
    (afterOp .cycle { s with pc := 0xFFE#16 }).fault = faultOf .memBounds 0xFFE#16 none (some 0xFFF) ∧
    (afterOp .cycle { s with pc := 0xFFF#16 }).fault = faultOf .memBounds 0xFFF#16 none (some 0xFFF) :=
  by decide

/-- L2-fetch, row `5121`. -/
theorem test_illegal :
    (after 0x5121 State.reset).fault = faultOf .illegalOpcode 0x200#16 (some 0x5121#16) none := by decide

/-- Log entry 12: from the bare reset the first fetch is `0000`. -/
theorem test_reset_first_cycle :
    (afterOp .cycle State.reset).fault = faultOf .legacyCall 0x200#16 (some 0x0000#16) none := by decide

/-- L2-fetch: a halted session ignores `Cycle` and `TickTimers`, not `SetKey`. -/
theorem test_halted :
    let t := after 0x0000 { State.reset with dt := 5#8 }
    afterOp .cycle t = t ∧ afterOp .tickTimers t = t ∧ (afterOp (.setKey (some 3)) t).key = some 3 := by decide

/-- L2-timer. -/
theorem test_tickTimers :
    (afterOp .tickTimers { State.reset with dt := 1#8, st := 5#8 }).dt = 0#8 ∧
    (afterOp .tickTimers { State.reset with dt := 1#8, st := 5#8 }).st = 4#8 ∧
    (afterOp .tickTimers State.reset).dt = 0#8 := by decide

/-- L2-key: overwritten, released, refused. -/
theorem test_setKey :
    (afterOp (.setKey (some 9)) (afterOp (.setKey (some 5)) State.reset)).key = some 9 ∧
    (afterOp (.setKey none) (afterOp (.setKey (some 5)) State.reset)).key = none ∧
    (afterOp (.setKey (some 16)) { State.reset with key := some 5 }).key = some 5 := by decide

/-! ## Witnesses: states and operands that meet the hypotheses of each statement, clause by clause -/

/-- A state in mid-session: one frame, one byte of memory set, `I` at the first writable address. -/
def mid : State :=
  { withBytes 0x300 [0x05] (withV [(0, 0x07), (1, 0xFF)]) with
    i := 0x050#16, sp := some 0, dt := 1#8, st := 5#8, key := some 7 }

/-- `mid` with `I` at an address. -/
def midAt (i : Word) : State := { mid with i := i }

/-- `mid` with `PC` at an address. -/
def midPc (pc : Word) : State := { mid with pc := pc }

/-- The default font as a vector. -/
def fontVector : Vector Byte 80 := ⟨⟨defaultFont⟩, rfl⟩

theorem witness_DecodeOfEncodeIsIdentity :
    (Instr.sys 0xFFF#12).wellFormed = true ∧ (Instr.drw 0xF#4 0xF#4 0xF#4).wellFormed = true ∧
    (Instr.ldVxMem 0x0#4).wellFormed = true := by decide

theorem witness_DecodedInstructionEncodesBack :
    decode 0xFF65#16 = .ok (.ldVxMem 0xF#4) ∧ decode 0x0000#16 = .ok (.sys 0x000#12) := by decide

theorem witness_IllegalOpcodeWords :
    decode 0xFFFF#16 = .error (.illegalOpcode 0xFFFF#16) ∧
    decode 0x5001#16 = .error (.illegalOpcode 0x5001#16) := by decide

theorem witness_DecodeFatalIsTaken :
    let s := mid.withFetchWord 16 0x0FFF
    let u := mid.withFetchWord 16 0x5001
    s.halted = false ∧ fetch s = .ok 0x0FFF#16 ∧ decode 0x0FFF#16 = .ok (.sys 0xFFF#12) ∧
    u.halted = false ∧ fetch u = .ok 0x5001#16 ∧ decode 0x5001#16 = .error (.illegalOpcode 0x5001#16) := by
  decide

/-- At the last address where two bytes fit. -/
theorem witness_StepRunsDecodedInstruction :
    let s := (midPc 0xFFD#16).withFetchWord 16 0x6011
    s.halted = false ∧ s.pc.toNat = 4093 ∧ s.pc.toNat + 1 < 4095 ∧
    Decodes ((s.mem.read s.pc.toNat).toNat * 256 + (s.mem.read (s.pc.toNat + 1)).toNat) (.ldImm 0x0#4 0x11#8) := by
  unfold Decodes; decide

theorem witness_FetchOutOfRangeHalts :
    ((midPc 0xFFE#16).halted = false ∧ (midPc 0xFFE#16).pc.toNat = 4094) ∧
    ((midPc 0xFFF#16).halted = false ∧ 4095 ≤ (midPc 0xFFF#16).pc.toNat) ∧
    (midPc 0xFFFF#16).halted = false ∧ 4095 ≤ (midPc 0xFFFF#16).pc.toNat := by decide

theorem witness_HaltedBlockStaysHalted :
    (after 0x0000 mid).halted = true ∧
    (match runSession [.cycle, .tickTimers, .setKey (some 15)] (after 0x0000 mid) with
      | .next t => t.halted | .fault _ => false | .refused _ => false) = true := by decide

/-- The largest program that fits constructs a session (also for the statements about sessions). -/
theorem witness_construct :
    ∃ s, construct (List.replicate 3583 0xFF#8) true fontVector (fun _ => 0xAA#8) = .next s :=
  ⟨_, if_neg (by rw [List.length_replicate]; decide)⟩

theorem witness_PlacedWordRunsNext :
    mid.mem.wf ∧ 0xFF65 < 65536 ∧ Decodes 0xFF65 (.ldVxMem 0xF#4) ∧ Decodes 0x0000 (.sys 0x000#12) := by
  unfold Decodes; decide

/-- A fetch fatal, an illegal word, and the fatal of an instruction. -/
theorem witness_FatalsArePrecise :
    ((midPc 0xFFE#16).halted = false ∧ (∃ r, fetch (midPc 0xFFE#16) = .error r) ∧
      ∃ t, step (midPc 0xFFE#16) = .next t ∧ t.halted = true) ∧
    ((mid.withFetchWord 16 0x5121).halted = false ∧ fetch (mid.withFetchWord 16 0x5121) = .ok 0x5121#16 ∧
      decode 0x5121#16 = .error (.illegalOpcode 0x5121#16) ∧
      ∃ t, step (mid.withFetchWord 16 0x5121) = .next t ∧ t.halted = true) ∧
    ((mid.withFetchWord 16 0x0123).halted = false ∧ fetch (mid.withFetchWord 16 0x0123) = .ok 0x0123#16 ∧
      decode 0x0123#16 = .ok (.sys 0x123#12) ∧
      ∃ t, step (mid.withFetchWord 16 0x0123) = .next t ∧ t.halted = true) :=
  ⟨⟨rfl, ⟨_, rfl⟩, _, rfl, rfl⟩, ⟨rfl, by decide, by decide, _, rfl, by decide⟩,
    ⟨rfl, by decide, by decide, _, rfl, by decide⟩⟩

/-- Each cause an instruction can raise, at the boundary where it starts, and the state next to it. -/
theorem witness_InstructionFatalsAreExact :
    fatalOf .ret State.reset = some ⟨.stackUnderflow, none⟩ ∧ fatalOf .ret mid = none ∧
    fatalOf (.sys 0x123#12) mid = some ⟨.legacyCall, none⟩ ∧
    fatalOf (.call 0x300#12) { mid with sp := some 15 } = some ⟨.stackOverflow, none⟩ ∧
    fatalOf (.call 0x300#12) { mid with sp := some 14 } = none ∧
    fatalOf (.drw 0x0#4 0x1#4 0x2#4) (midAt 0xFFE#16) = some ⟨.memBounds, some 0xFFF⟩ ∧
    fatalOf (.drw 0x0#4 0x1#4 0x1#4) (midAt 0xFFE#16) = none ∧
    fatalOf (.drw 0x0#4 0x1#4 0x0#4) (midAt 0xFFFF#16) = none ∧
    fatalOf (.ldBVx 0x0#4) (midAt 0x04F#16) = some ⟨.fontWrite, some 0x04F⟩ ∧
    fatalOf (.ldBVx 0x0#4) (midAt 0x050#16) = none ∧ fatalOf (.ldBVx 0x0#4) (midAt 0xFFC#16) = none ∧
    fatalOf (.ldBVx 0x0#4) (midAt 0xFFD#16) = some ⟨.memBounds, some 0xFFF⟩ ∧
    fatalOf (.ldMemVx 0xF#4) (midAt 0x040#16) = some ⟨.fontWrite, some 0x040⟩ ∧
    fatalOf (.ldMemVx 0xF#4) (midAt 0xFF0#16) = some ⟨.memBounds, some 0xFFF⟩ ∧
    fatalOf (.ldVxMem 0xF#4) (midAt 0xFF0#16) = some ⟨.memBounds, some 0xFFF⟩ ∧
    fatalOf (.ldVxMem 0x0#4) (midAt 0x1234#16) = some ⟨.memBounds, some 0x1234⟩ ∧
    fatalOf (.ldVxMem 0xF#4) (midAt 0x000#16) = none := by decide

/-- Targets whose two bytes do not fit, at both sides of the end of memory. -/
theorem witness_JumpSetsPc :
    mid.halted = false ∧ 0xFFE ≤ (0xFFE#12 : Addr).toNat ∧ 0xFFE ≤ (0xFFF#12 : Addr).toNat := by decide

theorem witness_JumpV0AddsUnmasked :
    mid.halted = false ∧ 0xFFE ≤ (0xFF7#12 : Addr).toNat + (mid.getV 0#4).toNat ∧
    0xFFE ≤ (0xFFF#12 : Addr).toNat + (mid.getV 0#4).toNat := by decide

theorem witness_ReturnPopsTheStack :
    State.reset.sp = none ∧ mid.sp = some 0 ∧ ({ mid with sp := some 15 } : State).sp = some 15 := by decide

theorem witness_LegacyCallHalts :
    (0x0E1#12 : Addr) ≠ 0x0E0#12 ∧ (0x0E1#12 : Addr) ≠ 0x0EE#12 ∧ (0x000#12 : Addr) ≠ 0x0E0#12 := by decide

theorem witness_CallPushesReturnAddress :
    State.spInt { mid with sp := some 15 } = 15 ∧ State.spInt { mid with sp := some 14 } ≠ 15 ∧
    State.reset.spInt ≠ 15 := by decide

/-- A low nibble that makes the word illegal, at both ends. -/
theorem witness_RegisterSkips : (0 < 1 ∧ 1 < 16) ∧ 0 < 15 ∧ 15 < 16 := by decide

theorem witness_CallThenReturnRestores :
    mid.spInt ≠ 15 ∧ ∃ t, exec (.call 0x300#12) mid = .next t ∧ ∃ u : State, u.sp = t.sp ∧ u.stack = t.stack :=
  ⟨by decide, _, rfl, _, rfl, rfl⟩

/-- A destination that is not `VF` (also for the shifts and the draw). -/
theorem witness_AddWithCarry : (0x0#4 : Nibble) ≠ 0xF#4 ∧ (0xE#4 : Nibble) ≠ 0xF#4 := by decide

theorem witness_SubtractWithNoBorrow : (0x1#4 : Nibble) ≠ 0xF#4 := by decide

/-- The source under both quirks. -/
theorem witness_ShiftRightUnderQuirk :
    0xFF = (if mid.quirk = true then (mid.getV 0x0#4).toNat else (mid.getV 0x1#4).toNat) ∧
    0x07 = (if ({ mid with quirk := true } : State).quirk = true then (mid.getV 0x0#4).toNat
      else (mid.getV 0x1#4).toNat) ∧ (0x0#4 : Nibble) ≠ 0xF#4 := by decide

theorem witness_ShiftLeftUnderQuirk :
    0x07 = (if mid.quirk = true then (mid.getV 0x1#4).toNat else (mid.getV 0x0#4).toNat) ∧
    0xFF = (if ({ mid with quirk := true } : State).quirk = true then (mid.getV 0x1#4).toNat
      else (mid.getV 0x0#4).toNat) ∧ (0x1#4 : Nibble) ≠ 0xF#4 := by decide

theorem witness_RandomByteIsMasked : (0x0F#8 : Byte).getLsbD 7 = false ∧ (0x00#8 : Byte).getLsbD 0 = false := by
  decide

/-- The last row inside memory, no row with `I` anywhere, and the first row past the end. -/
theorem witness_DrawTogglesSprite :
    (0x0#4 : Nibble).toNat = 0 ∧ (midAt 0xFFE#16).i.toNat + (0x1#4 : Nibble).toNat = 4095 ∧
    (midAt 0xFF0#16).i.toNat + (0xF#4 : Nibble).toNat = 4095 ∧
    ((0x1#4 : Nibble).toNat ≠ 0 ∧ 4095 < (midAt 0xFFF#16).i.toNat + (0x1#4 : Nibble).toNat) ∧
    ((0xF#4 : Nibble).toNat ≠ 0 ∧ 4095 < (midAt 0xFF1#16).i.toNat + (0xF#4 : Nibble).toNat) ∧
    63 < 64 ∧ 31 < 32 := by decide

/-- A covered on-screen pixel: the sprite at `I = 0` is the first row of glyph 0. -/
theorem witness_DrawTwiceRestores :
    (0x0#4 : Nibble) ≠ 0xF#4 ∧ (0x1#4 : Nibble) ≠ 0xF#4 ∧
    State.reset.i.toNat + (0x5#4 : Nibble).toNat ≤ 4095 ∧
    spriteCovers State.reset 0x00#8 0x00#8 5 3 0 = true ∧ spriteCovers State.reset 0x00#8 0x00#8 5 4 0 = false ∧
    fbGet State.reset.fb 2047 = false := by decide

theorem witness_DrawTwiceRestores_clear : ∀ k, fbGet State.reset.fb k = false := fun k => fbClear_get k

theorem witness_KeySkips :
    mid.key = some 7 ∧ (0x7#4 : Nibble).toNat = (mid.getV 0x0#4).toNat ∧
    (0x7#4 : Nibble).toNat ≠ (mid.getV 0x1#4).toNat ∧ State.reset.key = none := by decide

theorem witness_KeyWait : State.reset.key = none ∧ mid.key = some 7 ∧
    ({ mid with key := some 15 } : State).key = some 15 := by decide

theorem witness_TickFloorsAtZero : mid.halted = false ∧ (after 0x0000 mid).halted = true := by decide

theorem witness_SetKeyWritesTheLatch : 0 < 16 ∧ 15 < 16 ∧ 16 ≤ 16 := by decide

/-- `I` at the ends of the three ranges, on a canonical memory. -/
theorem witness_DecimalStore :
    ((midAt 0x050#16).mem.wf ∧ 0x050 ≤ (midAt 0x050#16).i.toNat ∧ (midAt 0x050#16).i.toNat + 2 < 4095) ∧
    ((midAt 0xFFC#16).mem.wf ∧ 0x050 ≤ (midAt 0xFFC#16).i.toNat ∧ (midAt 0xFFC#16).i.toNat + 2 < 4095) ∧
    (midAt 0x04F#16).i.toNat ≤ 0x04F ∧ 4095 ≤ (midAt 0xFFD#16).i.toNat + 2 := by decide

theorem witness_RegisterStore :
    ((midAt 0x050#16).mem.wf ∧ 0x050 ≤ (midAt 0x050#16).i.toNat ∧
      (midAt 0x050#16).i.toNat + (0x0#4 : Nibble).toNat < 4095 ∧ (0x0#4 : Nibble).toNat ≤ (0x0#4 : Nibble).toNat) ∧
    ((midAt 0xFEF#16).mem.wf ∧ 0x050 ≤ (midAt 0xFEF#16).i.toNat ∧
      (midAt 0xFEF#16).i.toNat + (0xF#4 : Nibble).toNat < 4095) ∧
    (midAt 0x04F#16).i.toNat ≤ 0x04F ∧ 4095 ≤ (midAt 0xFF0#16).i.toNat + (0xF#4 : Nibble).toNat ∧
    4095 ≤ (midAt 0xFFF#16).i.toNat + (0x0#4 : Nibble).toNat := by decide

theorem witness_RegisterLoad :
    (midAt 0x000#16).i.toNat + (0x0#4 : Nibble).toNat < 4095 ∧ (0x0#4 : Nibble).toNat ≤ (0x0#4 : Nibble).toNat ∧
    (midAt 0xFEF#16).i.toNat + (0xF#4 : Nibble).toNat < 4095 ∧
    4095 ≤ (midAt 0xFF0#16).i.toNat + (0xF#4 : Nibble).toNat := by decide

theorem witness_StoreThenLoadRestoresRegisters :
    mid.mem.wf ∧ 0x050 ≤ mid.i.toNat ∧ mid.i.toNat + (0xF#4 : Nibble).toNat < 4095 := by decide

theorem witness_StoredBytesAreFetched :
    (mid.mem.wf ∧ 0x050 ≤ mid.i.toNat ∧ mid.i.toNat + (0x1#4 : Nibble).toNat < 4095) ∧
    ∃ t, exec (.ldMemVx 0x1#4) mid = .next t ∧ ∃ u : State, u.mem = t.mem ∧
      (0x1#4 : Nibble).toNat = (0x0#4 : Nibble).toNat + 1 ∧ (0x1#4 : Nibble).toNat ≤ (0x1#4 : Nibble).toNat ∧
      u.pc.toNat = mid.i.toNat + (0x0#4 : Nibble).toNat :=
  ⟨by decide, _, rfl, { afterOp .cycle (mid.withFetchWord 16 0xF155) with
    mem := _, pc := 0x050#16 }, rfl, rfl, Nat.le_refl _, rfl⟩

/-- At the last address where three digits fit. -/
theorem witness_StoredBytesAreFetched_digits :
    ((midAt 0xFFC#16).mem.wf ∧ 0x050 ≤ (midAt 0xFFC#16).i.toNat ∧ (midAt 0xFFC#16).i.toNat + 2 < 4095) ∧
    ∃ t, exec (.ldBVx 0x1#4) (midAt 0xFFC#16) = .next t ∧
      (∃ u : State, u.mem = t.mem ∧ u.pc.toNat = (midAt 0xFFC#16).i.toNat) ∧
      ∃ u : State, u.mem = t.mem ∧ u.pc.toNat = (midAt 0xFFC#16).i.toNat + 1 :=
  ⟨by decide, _, rfl, ⟨{ midPc 0xFFC#16 with mem := _ }, rfl, rfl⟩, ⟨{ midPc 0xFFD#16 with mem := _ }, rfl, rfl⟩⟩

theorem witness_CanonicalMemoryIsDetermined : mid.mem.wf ∧ mid.mem = [(0x300, 0x05#8)] := by decide

theorem witness_InstructionsWriteOnlyTheirComponents :
    (∃ t, exec (.ldBVx 0x1#4) mid = .next t) ∧ ∃ t, exec .ret State.reset = .next t := ⟨⟨_, rfl⟩, ⟨_, rfl⟩⟩

/-- A session of every operation (also for the other statements about sessions). -/
theorem witness_FontNeverChangesInASession :
    0x04F ≤ 0x04F ∧ ∃ t, runSession [.cycle, .tickTimers, .setKey (some 3), .readStatus] mid = .next t :=
  ⟨by decide, _, rfl⟩

/-- A change of each component by each operation the statement names. -/
theorem witness_WritersOfEachComponent :
    (after 0xA300 mid).i ≠ mid.i ∧ (after 0xF01E mid).i ≠ mid.i ∧ (after 0xF029 mid).i ≠ mid.i ∧
    (after 0x2300 mid).sp ≠ mid.sp ∧ (after 0x00EE mid).sp ≠ mid.sp ∧ (after 0x2300 mid).stack ≠ mid.stack ∧
    (afterOp .tickTimers mid).dt ≠ mid.dt ∧ (after 0xF015 mid).dt ≠ mid.dt ∧
    (afterOp .tickTimers mid).st ≠ mid.st ∧ (after 0xF018 mid).st ≠ mid.st ∧
    (afterOp (.setKey none) mid).key ≠ mid.key ∧
    (after 0xF033 mid).mem ≠ (mid.withFetchWord 16 0xF033).mem ∧
    (after 0xF055 mid).mem ≠ (mid.withFetchWord 16 0xF055).mem := by decide

theorem witness_OnlyDrawAndClearTouchTheFramebuffer :
    (let s := { mid with fb := .replicate 32 1#64 }; (after 0x00E0 s).fb ≠ s.fb) ∧
    (∀ x y n, Instr.ldI 0x300#12 ≠ .drw x y n) ∧ ∃ t, exec (.ldI 0x300#12) mid = .next t :=
  ⟨by decide, nofun, _, rfl⟩

/-- The invariant of a running state and of a halted one, neither of them the reset state. -/
theorem witness_InvariantKeptByEveryStep :
    Inv mid ∧ Inv { mid with halted := true, fault := faultOf .fontWrite 0x200#16 (some 0xF055#16) (some 0x04F) } ∧
    (∃ t, step (mid.withFetchWord 16 0xF055) = .next t) ∧ ∃ t, hostStep (.setKey (some 3)) mid = .next t :=
  ⟨⟨by decide, by decide, nofun, nofun, nofun⟩,
    ⟨by decide, by decide, by rintro f ⟨⟩; rfl, by rintro f ⟨⟩ ⟨⟩, by rintro f ⟨⟩; exact ⟨_, rfl, by decide⟩⟩,
    ⟨_, rfl⟩, _, rfl⟩

/-- A schedule of every operation that changes the state, and a construction. -/
theorem witness_InvariantHoldsInEverySession :
    Inv mid ∧ (∃ t, runSession [.cycle, .tickTimers, .setKey none, .cycle, .readFramebuffer] mid = .next t) ∧
    ∃ s, construct [0xF0#8, 0x55#8] false fontVector (fun _ => 0#8) = .next s :=
  ⟨⟨by decide, by decide, nofun, nofun, nofun⟩, ⟨_, rfl⟩, _, if_neg (by decide)⟩

theorem witness_QuirkIsConstantAndReadByShiftsOnly :
    (∀ x y, Instr.addReg 0x0#4 0x1#4 ≠ .shr x y) ∧ (∀ x y, Instr.addReg 0x0#4 0x1#4 ≠ .shl x y) ∧
    ∃ t, exec (.addReg 0x0#4 0x1#4) mid = .next t := ⟨nofun, nofun, _, rfl⟩

/-- A schedule with a cycle that completes, and one that is refused. -/
theorem witness_SoundTimerIsUnobservable :
    (∃ t, runSession [.tickTimers, .cycle, .setKey none, .snapshot] (mid.withFetchWord 16 0xF018) = .next t) ∧
    runSession [.cycle, .setKey (some 16)] mid = .refused (.setKeyArgument 16) := ⟨⟨_, rfl⟩, rfl⟩

theorem witness_ConstructionLeavesTheTable :
    4095 < 0x200 + (List.replicate 3584 0#8).length ∧ 0x200 + (List.replicate 3583 0#8).length ≤ 4095 ∧
    0x1FF < 4095 ∧ 80 ≤ 80 ∧ 80 < 0x200 := by
  rw [List.length_replicate, List.length_replicate]; decide

end Sys2Proof.Tests
end

section
/-! `QUIRK` (00_scope.md R10; 10_state.md R33)

The idea is one: setting `QUIRK` before an instruction that is no shift equals setting it after. Writing
back the value it has makes the same fact say that the instruction keeps it. -/

namespace Sys2Proof.Machine

/-! ## Setting `QUIRK`, and what commutes with it -/

/-- `s` with `QUIRK` set to `q` (10_state.md R33), by no operation of the machine. -/
def State.withQuirk (q : Bool) (s : State) : State := { s with quirk := q }

@[simp] theorem withQuirk_quirk (q : Bool) (s : State) : (s.withQuirk q).quirk = q := rfl

@[simp] theorem withQuirk_key (q : Bool) (s : State) : (s.withQuirk q).key = s.key := rfl

@[simp] theorem withQuirk_self (s : State) : s.withQuirk s.quirk = s := rfl

theorem skipIf_withQuirk (f q : Bool) (s : State) : (s.withQuirk q).skipIf f = (s.skipIf f).withQuirk q := by
  cases f <;> rfl

theorem takeFatal_withQuirk (op : Option Word) (r : Raised) (q : Bool) (s : State) :
    takeFatal op r (s.withQuirk q) = (takeFatal op r s).withQuirk q := rfl

theorem returnFromCall_withQuirk (q : Bool) (s : State) :
    returnFromCall (s.withQuirk q) = (returnFromCall s).map (State.withQuirk q) := by
  simp only [returnFromCall, State.withQuirk]
  cases s.sp <;> rfl

theorem callTo_withQuirk (target : Word) (q : Bool) (s : State) :
    callTo target (s.withQuirk q) = (callTo target s).map (State.withQuirk q) := by
  simp only [callTo, State.withQuirk]
  cases spPush s.sp <;> rfl

theorem drawSprite_withQuirk (vx vy : Byte) (n : Nat) (q : Bool) (s : State) :
    drawSprite vx vy n (s.withQuirk q) = (drawSprite vx vy n s).map (State.withQuirk q) := by
  simp only [drawSprite, State.withQuirk]
  cases loadBytes s.mem s.i.toNat n <;> rfl

theorem storeAtI_withQuirk (bs : List Byte) (q : Bool) (s : State) :
    storeAtI bs (s.withQuirk q) = (storeAtI bs s).map (State.withQuirk q) := by
  simp only [storeAtI, State.withQuirk]
  cases storeBytes s.mem s.i.toNat bs <;> rfl

theorem loadFromI_withQuirk (x : Nibble) (q : Bool) (s : State) :
    loadFromI x (s.withQuirk q) = (loadFromI x s).map (State.withQuirk q) := by
  simp only [loadFromI, State.withQuirk]
  cases loadBytes s.mem s.i.toNat (x.toNat + 1) <;> rfl

/-! ## Operations blind to `QUIRK` -/

/-- The operation neither reads nor writes `QUIRK`: setting it first equals setting it afterwards. -/
def QuirkBlind (f : State → Host.Outcome State Fault Refusal) : Prop :=
  ∀ q s t, f s = .next t → f (s.withQuirk q) = .next (t.withQuirk q)

theorem QuirkBlind.of_update {g : State → State} (hg : ∀ q s, g (s.withQuirk q) = (g s).withQuirk q) :
    QuirkBlind fun s => .next (g s) := by
  intro q s t h
  cases h
  exact congrArg _ (hg q s)

/-- A cycle that may raise a fatal is blind when its instruction's meaning is: the fatal is taken in the state
the cycle began in, `QUIRK` kept. -/
theorem QuirkBlind.of_commit {op : Word} {g : State → Except Raised State}
    (hg : ∀ q s, g (s.withQuirk q) = (g s).map (State.withQuirk q)) :
    QuirkBlind fun s => commit op s (g s) := by
  intro q s t h
  simp only [hg]
  obtain hr | ⟨e, hr, rfl⟩ := commit_cases h
  · rw [hr]; rfl
  · rw [hr, ← takeFatal_withQuirk]; rfl

/-- A blind operation keeps `QUIRK`, since setting it to the value it has changes nothing. -/
theorem QuirkBlind.quirk_eq {f : State → Host.Outcome State Fault Refusal} (hf : QuirkBlind f) {s t : State}
    (h : f s = .next t) : t.quirk = s.quirk := by
  have hset := hf s.quirk s t h
  rw [withQuirk_self, h] at hset
  injection hset with ht
  rw [ht, withQuirk_quirk]

/-- `FX0A` waits or takes the key, in either case blind to `QUIRK` (43_keys_timers.md R207). -/
theorem execLdVxK_quirkBlind (x : Nibble) : QuirkBlind (execLdVxK x) := by
  intro q s t h
  simp only [execLdVxK, withQuirk_key] at h ⊢
  cases hk : s.key with
  | none => simp only [hk] at h ⊢; cases h; rfl
  | some k => simp only [hk] at h ⊢; cases h; rfl

/-- Every instruction but `8XY6` and `8XYE` is blind to `QUIRK` (10_state.md R33). -/
theorem exec_quirkBlind {i : Instr} (hshr : ∀ x y, i ≠ .shr x y) (hshl : ∀ x y, i ≠ .shl x y) :
    QuirkBlind (exec i) := by
  cases i with
  | shr x y => exact absurd rfl (hshr x y)
  | shl x y => exact absurd rfl (hshl x y)
  | ret => exact .of_commit fun q s => returnFromCall_withQuirk q s.advance
  | sys nnn => exact .of_commit (g := fun _ => .error ⟨.legacyCall, none⟩) fun _ _ => rfl
  | call nnn => exact .of_commit fun q s => callTo_withQuirk _ q s.advance
  | drw x y n => exact .of_commit fun q s => drawSprite_withQuirk _ _ _ q s.advance
  | ldBVx _ | ldMemVx _ => exact .of_commit fun q s => storeAtI_withQuirk _ q s.advance
  | ldVxMem x => exact .of_commit fun q s => loadFromI_withQuirk x q s.advance
  | seImm _ _ | sneImm _ _ | seReg _ _ | sneReg _ _ | skp _ | sknp _ =>
    exact .of_update fun q s => skipIf_withQuirk _ q s.advance
  | ldVxK x => exact execLdVxK_quirkBlind x
  | _ => exact .of_update fun _ _ => rfl

/-! ## `QUIRK` in a session -/

/-- Every instruction keeps `QUIRK`, the shifts too: they read it only (10_state.md R33). -/
theorem exec_quirk {i : Instr} {s t : State} (h : exec i s = .next t) : t.quirk = s.quirk := by
  cases i with
  | shr _ _ | shl _ _ => cases h; rfl
  | _ => exact (exec_quirkBlind (by simp) (by simp)).quirk_eq h

theorem step_quirk {s t : State} (h : step s = .next t) : t.quirk = s.quirk := by
  obtain ⟨-, ht⟩ | ⟨-, r, -, ht⟩ | ⟨-, op, -, -, ht⟩ | ⟨-, op, i, -, -, he⟩ := step_cases h
  · cases ht; rfl
  · cases ht; rfl
  · cases ht; rfl
  · exact exec_quirk he.symm

@[simp] theorem tickTimers_quirk (s : State) : (tickTimers s).quirk = s.quirk := by
  unfold tickTimers; split <;> rfl

theorem hostStep_quirk {op : HostOp} {s t : State} (h : hostStep op s = .next t) : t.quirk = s.quirk := by
  obtain ⟨-, hs⟩ | ⟨-, rfl⟩ | ⟨-, k, rfl⟩ | rfl := hostStep_cases h
  · exact step_quirk hs
  · exact tickTimers_quirk s
  · rfl
  · rfl

theorem runSession_quirk {ops : List HostOp} {s t : State} (h : runSession ops s = .next t) :
    t.quirk = s.quirk :=
  runSession_induct (P := fun u => u.quirk = s.quirk) (fun _ _ _ hu ho => (hostStep_quirk ho).trans hu) ops rfl h

/-- Settles O50: the two parts are `runSession_quirk` and `exec_quirkBlind`. -/
theorem quirkIsConstantAndReadByShiftsOnly : Obligations.QuirkIsConstantAndReadByShiftsOnly :=
  ⟨fun _ _ _ h => runSession_quirk h, fun _ s t q hshr hshl h => exec_quirkBlind hshr hshl q s t h⟩

end Sys2Proof.Machine
end

section
/-! What ends a cycle (40_control_flow.md R100; 60_exceptions.md R252, R253)

An instruction either raises a fatal, whose address fits its cause, or completes: it writes the components
of the access summary only, and memory only by storing bytes from `I` up. `exec_cases` says so once for all
instructions; `step_ends` and `hostStep_changes` carry it to the cycle and to the host operations. -/

namespace Sys2Proof.Machine

/-! ## Results of the shared operations -/

/-- A return that succeeds changes `PC` and `SP` only (40_control_flow.md R103). -/
theorem returnFromCall_ok {s t : State} (h : returnFromCall s = .ok t) :
    ∃ pc sp, t = { s with pc := pc, sp := sp } := by
  unfold returnFromCall at h
  split at h
  · cases h
  · cases h; exact ⟨_, _, rfl⟩

theorem returnFromCall_error {s : State} {r : Raised} (h : returnFromCall s = .error r) :
    r = ⟨.stackUnderflow, none⟩ := by
  unfold returnFromCall at h
  split at h
  · cases h; rfl
  · cases h

/-- A call that succeeds pushes one frame and jumps (40_control_flow.md R106). -/
theorem callTo_ok {target : Word} {s t : State} (h : callTo target s = .ok t) :
    ∃ k, spPush s.sp = some k ∧
      t = { s with sp := some k, stack := s.stack.set k.val s.pc, pc := target } := by
  unfold callTo at h
  split at h
  · cases h
  · next k hk => cases h; exact ⟨k, hk, rfl⟩

theorem callTo_error {target : Word} {s : State} {r : Raised} (h : callTo target s = .error r) :
    r = ⟨.stackOverflow, none⟩ := by
  unfold callTo at h
  split at h
  · cases h; rfl
  · cases h

/-- A draw that succeeds changes the framebuffer and `VF` only (42_display.md R175). -/
theorem drawSprite_ok {vx vy : Byte} {n : Nat} {s t : State} (h : drawSprite vx vy n s = .ok t) :
    ∃ fb f, t = State.setFlag { s with fb := fb } f := by
  unfold drawSprite at h
  split at h
  · cases h
  · cases h; exact ⟨_, _, rfl⟩

theorem drawSprite_error {vx vy : Byte} {n : Nat} {s : State} {r : Raised} (h : drawSprite vx vy n s = .error r) :
    loadBytes s.mem s.i.toNat n = .error r := by
  unfold drawSprite at h
  split at h
  · next hl => cases h; exact hl
  · cases h

/-- A store that succeeds changes memory only (44_memory_transfer.md R230, R232). -/
theorem storeAtI_eq_ok {bs : List Byte} {s t : State} (h : storeAtI bs s = .ok t) :
    storeBytes s.mem s.i.toNat bs = .ok t.mem ∧ t = { s with mem := t.mem } := by
  unfold storeAtI at h
  split at h
  · cases h
  · next hm => cases h; exact ⟨hm, rfl⟩

theorem storeAtI_error {bs : List Byte} {s : State} {r : Raised} (h : storeAtI bs s = .error r) :
    storeBytes s.mem s.i.toNat bs = .error r := by
  unfold storeAtI at h
  split at h
  · next hm => cases h; exact hm
  · cases h

/-- A load that succeeds changes registers only, none above `Vx` (44_memory_transfer.md R234). -/
theorem loadFromI_eq_ok {x : Nibble} {s t : State} (h : loadFromI x s = .ok t) :
    ∃ v, t = { s with v := v } ∧ ∀ y : Nibble, x.toNat < y.toNat → t.getV y = s.getV y := by
  by_cases hfit : s.i.toNat + x.toNat < memSize
  · obtain ⟨v, hv, hget⟩ := loadFromI_ok x s hfit
    rw [hv] at h
    cases h
    exact ⟨v, rfl, fun y hy => (hget y).trans (if_neg (by omega))⟩
  · simp only [loadFromI, loadBytes_error s.mem s.i.toNat (x.toNat + 1) (by omega) (by omega)] at h
    cases h

theorem loadFromI_error {x : Nibble} {s : State} {r : Raised} (h : loadFromI x s = .error r) :
    loadBytes s.mem s.i.toNat (x.toNat + 1) = .error r := by
  unfold loadFromI at h
  split at h
  · next hl => cases h; exact hl
  · cases h

/-! ## Fatals whose address fits their cause -/

/-- Every record of the raised fatal has an address that fits its cause (60_exceptions.md R250). -/
def Raised.Fits (r : Raised) : Prop :=
  ∀ pc op, AddressMatchesCause { cause := r.cause, pc := pc, opcode := op, addr := r.addr }

theorem fits_memBounds {a : Nat} (h : memSize ≤ a) : Raised.Fits ⟨.memBounds, some a⟩ :=
  fun _ _ => ⟨a, rfl, h⟩

theorem fits_fontWrite {a : Nat} (h : a < fontSize) : Raised.Fits ⟨.fontWrite, some a⟩ :=
  fun _ _ => ⟨a, rfl, Nat.le_of_lt_succ h⟩

theorem fits_legacyCall : Raised.Fits ⟨.legacyCall, none⟩ := fun _ _ => rfl

theorem fits_illegalOpcode : Raised.Fits ⟨.illegalOpcode, none⟩ := fun _ _ => rfl

theorem fits_stackOverflow : Raised.Fits ⟨.stackOverflow, none⟩ := fun _ _ => rfl

theorem fits_stackUnderflow : Raised.Fits ⟨.stackUnderflow, none⟩ := fun _ _ => rfl

theorem fits_of_loadBytes {m : Memory} {a n : Nat} {r : Raised} (h : loadBytes m a n = .error r) : r.Fits := by
  obtain ⟨cause, addr⟩ := r
  obtain ⟨rfl, b, rfl, hb⟩ := loadBytes_error_addr h
  exact fits_memBounds hb

theorem fits_of_storeBytes {m : Memory} {a : Nat} {bs : List Byte} {r : Raised}
    (h : storeBytes m a bs = .error r) : r.Fits := by
  obtain ⟨cause, addr⟩ := r
  obtain ⟨rfl, b, rfl, hb⟩ | ⟨rfl, b, rfl, hb⟩ := storeBytes_error h
  · exact fits_memBounds hb
  · exact fits_fontWrite hb

/-! ## Instructions -/

/-- An instruction that completes writes the components of the access summary only, and memory only by
storing bytes from `I` up (10_state.md R37; 44_memory_transfer.md R230, R232). -/
structure Completes (i : Instr) (s t : State) : Prop where
  frame : OnlyChanges (MayWrite s i) s t
  mem : t.mem = s.mem ∨
    (∃ x, i = .ldBVx x ∨ i = .ldMemVx x) ∧ ∃ bs, storeBytes s.mem s.i.toNat bs = .ok t.mem

theorem completes_ret {s t : State} (h : returnFromCall s.advance = .ok t) : Completes .ret s t := by
  obtain ⟨pc, sp, rfl⟩ := returnFromCall_ok h
  refine ⟨fun c hc => ?_, .inl rfl⟩
  cases c with
  | pc => exact absurd (.inl rfl) hc
  | sp => exact absurd (.inr rfl) hc
  | _ => rfl

theorem completes_call {nnn : Addr} {s t : State} (h : callTo (zextAddr nnn) s.advance = .ok t) :
    Completes (.call nnn) s t := by
  obtain ⟨k, hk, rfl⟩ := callTo_ok h
  refine ⟨fun c hc => ?_, .inl rfl⟩
  cases c with
  | pc => exact absurd (.inl rfl) hc
  | sp => exact absurd (.inr (.inl rfl)) hc
  | stack j =>
    have hkj : k.val ≠ j.val := fun e => hc (.inr (.inr ⟨j, rfl, e ▸ spPush_spInt hk⟩))
    exact Vector.getElem_set_ne k.isLt j.isLt hkj
  | _ => rfl

theorem completes_drw {x y n : Nibble} {s t : State}
    (h : drawSprite (s.getV x) (s.getV y) n.toNat s.advance = .ok t) : Completes (.drw x y n) s t := by
  obtain ⟨fb, f, rfl⟩ := drawSprite_ok h
  refine ⟨fun c hc => ?_, .inl rfl⟩
  cases c with
  | pc => exact absurd (.inl rfl) hc
  | v z => exact (getV_setFlag _ z f).trans (if_neg fun e => hc (.inr (.inl (congrArg Component.v e))))
  | pixel k => exact absurd (.inr (.inr ⟨k, rfl⟩)) hc
  | _ => rfl

/-- A store of bytes leaves every byte outside the stored range as it was, and keeps the canonical form. -/
theorem storeBytes_keeps {m m' : Memory} {a : Nat} {bs : List Byte} (h : storeBytes m a bs = .ok m') :
    (∀ b, (∀ k < bs.length, b ≠ a + k) → m'.read b = m.read b) ∧ (m.wf → m'.wf) := by
  obtain ⟨m₁, h₁, hout, hwf⟩ := storeBytes_ok m a bs (storeBytes_range h)
  obtain rfl : m₁ = m' := by rw [h] at h₁; cases h₁; rfl
  refine ⟨fun b hb => hout b ?_, fun hm => (hwf hm).1⟩
  by_contra hin
  exact hb (b - a) (by omega) (by omega)

/-- `FX33` and `FX55` complete when the access summary gives them the bytes they store. -/
theorem completes_store {i : Instr} (hi : ∃ x, i = .ldBVx x ∨ i = .ldMemVx x) {bs : List Byte} {s t : State}
    (hpc : MayWrite s i .pc) (hmem : ∀ k < bs.length, MayWrite s i (.mem (s.i.toNat + k)))
    (h : storeAtI bs s.advance = .ok t) : Completes i s t := by
  obtain ⟨hm, ht⟩ := storeAtI_eq_ok h
  refine ⟨fun c hc => ?_, .inr ⟨hi, bs, hm⟩⟩
  cases c with
  | pc => exact absurd hpc hc
  | mem a => exact (storeBytes_keeps hm).1 a fun k hk e => hc (e ▸ hmem k hk)
  | _ => rw [ht]; rfl

theorem completes_ldVxMem {x : Nibble} {s t : State} (h : loadFromI x s.advance = .ok t) :
    Completes (.ldVxMem x) s t := by
  obtain ⟨v, rfl, hv⟩ := loadFromI_eq_ok h
  refine ⟨fun c hc => ?_, .inl rfl⟩
  cases c with
  | pc => exact absurd (.inl rfl) hc
  | v y => exact hv y (Nat.lt_of_not_le fun hy => hc (.inr ⟨y, hy, rfl⟩))
  | _ => rfl

/-- `FX0A` waits, changing nothing, or takes the key (43_keys_timers.md R207). -/
theorem completes_ldVxK {x : Nibble} {s t : State} (h : execLdVxK x s = .next t) : Completes (.ldVxK x) s t := by
  unfold execLdVxK at h
  split at h
  · cases h; rw [advance_rewind]; exact ⟨onlyChanges_refl _ s, .inl rfl⟩
  · cases h; exact ⟨onlyChanges_setV s x _, .inl rfl⟩

theorem completes_cls (s : State) : Completes .cls s { s.advance with fb := fbClear } := by
  refine ⟨fun c hc => ?_, .inl rfl⟩
  cases c with
  | pc => exact absurd (.inl rfl) hc
  | pixel k => exact absurd (.inr ⟨k, rfl⟩) hc
  | _ => rfl

theorem completes_rnd (x : Nibble) (kk : Byte) (s : State) (b : Byte) :
    Completes (.rnd x kk) s { s.advance.setV x b with draws := s.draws + 1 } := by
  refine ⟨fun c hc => ?_, .inl rfl⟩
  cases c with
  | pc => exact absurd (.inl rfl) hc
  | v y => exact getV_setV_ne fun e => hc (.inr (.inl (congrArg Component.v e)))
  | draws => exact absurd (.inr (.inr rfl)) hc
  | _ => rfl

theorem completes_ldDtVx (x : Nibble) (s : State) (b : Byte) :
    Completes (.ldDtVx x) s { s.advance with dt := b } := by
  refine ⟨fun c hc => ?_, .inl rfl⟩
  cases c with
  | pc => exact absurd (.inl rfl) hc
  | dt => exact absurd (.inr rfl) hc
  | _ => rfl

theorem completes_ldStVx (x : Nibble) (s : State) (b : Byte) :
    Completes (.ldStVx x) s { s.advance with st := b } := by
  refine ⟨fun c hc => ?_, .inl rfl⟩
  cases c with
  | pc => exact absurd (.inl rfl) hc
  | st => exact absurd (.inr rfl) hc
  | _ => rfl

/-- The end of an instruction that may raise a fatal: one that fits, or its completion. -/
theorem commit_ends {i : Instr} {s t : State} {g : Except Raised State} (h : commit (encode i) s g = .next t)
    (herr : ∀ r, g = .error r → r.Fits) (hok : ∀ u, g = .ok u → Completes i s u) :
    (∃ r, r.Fits ∧ t = takeFatal (some (encode i)) r s) ∨ Completes i s t := by
  obtain hg | ⟨r, hg, rfl⟩ := commit_cases h
  · exact .inr (hok t hg)
  · exact .inl ⟨r, herr r hg, rfl⟩

/-- What an instruction can do: raise a fatal that fits, or complete (10_state.md R37; 60_exceptions.md
R253). -/
theorem exec_cases {i : Instr} {s t : State} (h : exec i s = .next t) :
    (∃ r, r.Fits ∧ t = takeFatal (some (encode i)) r s) ∨ Completes i s t := by
  cases i with
  | ret =>
    exact commit_ends h (fun r hr => returnFromCall_error hr ▸ fits_stackUnderflow) fun _ => completes_ret
  | sys nnn => cases h; exact .inl ⟨_, fits_legacyCall, rfl⟩
  | call nnn =>
    exact commit_ends h (fun r hr => callTo_error hr ▸ fits_stackOverflow) fun _ => completes_call
  | drw x y n => exact commit_ends h (fun r hr => fits_of_loadBytes (drawSprite_error hr)) fun _ => completes_drw
  | ldBVx x =>
    exact commit_ends h (fun r hr => fits_of_storeBytes (storeAtI_error hr)) fun _ =>
      completes_store ⟨x, .inl rfl⟩ (.inl rfl) fun k hk => .inr ⟨k, hk, rfl⟩
  | ldMemVx x =>
    exact commit_ends h (fun r hr => fits_of_storeBytes (storeAtI_error hr)) fun _ =>
      completes_store ⟨x, .inr rfl⟩ (.inl rfl) fun k hk =>
        .inr ⟨k, Nat.le_of_lt_succ (hk.trans_eq (firstRegs_length s x)), rfl⟩
  | ldVxMem x =>
    exact commit_ends h (fun r hr => fits_of_loadBytes (loadFromI_error hr)) fun _ => completes_ldVxMem
  | ldVxK x => exact .inr (completes_ldVxK h)
  | jp _ | jpV0 _ => cases h; exact .inr ⟨onlyChanges_jump s _, .inl rfl⟩
  | seImm _ _ | sneImm _ _ | seReg _ _ | sneReg _ _ | skp _ | sknp _ =>
    cases h; exact .inr ⟨onlyChanges_skipIf s _, .inl (skipIf_mem _ _)⟩
  | ldImm x _ | addImm x _ | ldReg x _ | orReg x _ | andReg x _ | xorReg x _ | ldVxDt x =>
    cases h; exact .inr ⟨onlyChanges_setV s x _, .inl rfl⟩
  | addReg x _ | subReg x _ | shr x _ | subnReg x _ | shl x _ =>
    cases h; exact .inr ⟨onlyChanges_setResultFlag s x _ _, .inl rfl⟩
  | ldI _ | addIVx _ | ldFVx _ => cases h; exact .inr ⟨onlyChanges_setI s _, .inl rfl⟩
  | cls => cases h; exact .inr (completes_cls s)
  | rnd x kk => cases h; exact .inr (completes_rnd x kk s _)
  | ldDtVx x => cases h; exact .inr (completes_ldDtVx x s _)
  | ldStVx x => cases h; exact .inr (completes_ldStVx x s _)

/-- Settles O43, from `exec_cases`: a fatal writes `HALTED` and `FAULT`, a completion what the summary
gives. -/
theorem instructionsWriteOnlyTheirComponents : Obligations.InstructionsWriteOnlyTheirComponents := by
  intro i s t h
  obtain ⟨r, -, rfl⟩ | hdone := exec_cases h
  · exact .inl (onlyChanges_takeFatal _ r s)
  · exact .inr hdone.frame

end Sys2Proof.Machine
end

section
/-! What a cycle and a host operation can do (40_control_flow.md R100; 60_exceptions.md R269) -/

namespace Sys2Proof.Machine

/-- A failed fetch is `MEM_BOUNDS` at an address that is not present (60_exceptions.md R257). -/
theorem fetch_eq_error {s : State} {r : Raised} (h : fetch s = .error r) : r.cause = .memBounds ∧ r.Fits := by
  by_cases hpc : s.pc.toNat + 1 < memSize
  · rw [fetch_ok s hpc] at h; cases h
  · rw [fetch_error s (Nat.le_of_not_lt hpc)] at h
    cases h
    exact ⟨rfl, fits_memBounds (Nat.le_max_right _ _)⟩

/-- What a cycle can end in: the same halted state, a fatal of a running block, or a decoded instruction's
completion. -/
theorem step_ends {s t : State} (h : step s = .next t) :
    (s.halted = true ∧ t = s) ∨
    (s.halted = false ∧ ∃ op r, r.Fits ∧ (op = none → r.cause = .memBounds) ∧ t = takeFatal op r s) ∨
    (s.halted = false ∧ ∃ w i, fetch s = .ok w ∧ decode w = .ok i ∧ Completes i s t) := by
  obtain ⟨hh, ht⟩ | ⟨hh, r, hr, ht⟩ | ⟨hh, w, -, -, ht⟩ | ⟨hh, w, i, hw, hi, he⟩ := step_cases h
  · cases ht; exact .inl ⟨hh, rfl⟩
  · cases ht
    obtain ⟨hcause, hfit⟩ := fetch_eq_error hr
    exact .inr (.inl ⟨hh, none, r, hfit, fun _ => hcause, rfl⟩)
  · cases ht; exact .inr (.inl ⟨hh, some w, _, fits_illegalOpcode, nofun, rfl⟩)
  · obtain ⟨r, hfit, rfl⟩ | hdone := exec_cases he.symm
    · exact .inr (.inl ⟨hh, some _, r, hfit, nofun, rfl⟩)
    · exact .inr (.inr ⟨hh, w, i, hw, hi, hdone⟩)

/-- `TickTimers` writes `DT` and `ST` only (43_keys_timers.md R212). -/
theorem tickTimers_eq (s : State) : ∃ dt st, tickTimers s = { s with dt := dt, st := st } := by
  unfold tickTimers
  split
  · exact ⟨s.dt, s.st, rfl⟩
  · exact ⟨_, _, rfl⟩

/-! ## The invariant -/

/-- The invariant speaks of `MEM`, `HALTED`, `FAULT` and `PC` only. -/
theorem Inv.of_eq {s t : State} (hs : Inv s) (hmem : t.mem = s.mem) (hhalted : t.halted = s.halted)
    (hfault : t.fault = s.fault) (hpc : t.pc = s.pc) : Inv t := by
  obtain ⟨h₁, h₂, h₃, h₄, h₅⟩ := hs
  constructor <;> simpa only [hmem, hhalted, hfault, hpc]

/-- A running block with canonical memory and no fault has the invariant, wherever its `PC` is. -/
theorem Inv.of_running {s : State} (hmem : s.mem.wf) (hhalted : s.halted = false) (hfault : s.fault = none) :
    Inv s where
  memCanonical := hmem
  haltedIffFault := by simp [hhalted, hfault]
  faultPc := by simp [hfault]
  faultOpcode := by simp [hfault]
  faultAddr := by simp [hfault]

/-- A fatal that fits, taken with canonical memory, leaves the invariant (60_exceptions.md R253,
R254). -/
theorem Inv.takeFatal {s : State} {op : Option Word} {r : Raised} (hmem : s.mem.wf) (hfit : r.Fits)
    (hop : op = none → r.cause = .memBounds) : Inv (takeFatal op r s) where
  memCanonical := hmem
  haltedIffFault := by simp
  faultPc := by rintro f ⟨⟩; rfl
  faultOpcode := by rintro f ⟨⟩; exact hop
  faultAddr := by rintro f ⟨⟩; exact hfit _ _

theorem Inv.fault_eq_none {s : State} (hs : Inv s) (hh : s.halted = false) : s.fault = none := by
  have := hs.haltedIffFault
  simpa [hh] using this

theorem Completes.wf {i : Instr} {s t : State} (h : Completes i s t) (hs : s.mem.wf) : t.mem.wf := by
  obtain hm | ⟨-, bs, hm⟩ := h.mem
  · rwa [hm]
  · exact (storeBytes_keeps hm).2 hs

/-- No instruction that completes writes `HALTED` or `FAULT` (10_state.md R34, R35). -/
theorem not_mayWrite_halted (s : State) (i : Instr) : ¬ MayWrite s i .halted := by
  cases i <;> simp [MayWrite]

theorem not_mayWrite_fault (s : State) (i : Instr) : ¬ MayWrite s i .fault := by
  cases i <;> simp [MayWrite]

theorem step_inv {s t : State} (hs : Inv s) (h : step s = .next t) : Inv t := by
  obtain ⟨-, rfl⟩ | ⟨-, op, r, hfit, hop, rfl⟩ | ⟨hh, w, i, -, -, hdone⟩ := step_ends h
  · exact hs
  · exact .takeFatal hs.memCanonical hfit hop
  · have hhalted : t.halted = s.halted := hdone.frame .halted (not_mayWrite_halted s i)
    have hfault : t.fault = s.fault := hdone.frame .fault (not_mayWrite_fault s i)
    exact .of_running (hdone.wf hs.memCanonical) (hhalted.trans hh) (hfault.trans (hs.fault_eq_none hh))

theorem hostStep_inv {op : HostOp} {s t : State} (hs : Inv s) (h : hostStep op s = .next t) : Inv t := by
  obtain ⟨-, h⟩ | ⟨-, rfl⟩ | ⟨-, k, rfl⟩ | rfl := hostStep_cases h
  · exact step_inv hs h
  · obtain ⟨dt, st, ht⟩ := tickTimers_eq s
    exact ht ▸ hs.of_eq rfl rfl rfl rfl
  · exact hs.of_eq rfl rfl rfl rfl
  · exact hs

/-- Settles O47: a fatal writes a record that fits, an instruction that completes keeps `HALTED`, `FAULT` and
the canonical form, and the other operations touch none of them. -/
theorem invariantKeptByEveryStep : Obligations.InvariantKeptByEveryStep :=
  ⟨fun _ _ => step_inv, fun _ _ _ => hostStep_inv⟩

/-- Settles O48. -/
theorem invariantHoldsAtReset : Obligations.InvariantHoldsAtReset :=
  ⟨.of_running Memory.wf_nil rfl rfl, rfl, rfl⟩

/-! ## Writers -/

/-- A cycle changes `MEM` only by `FX33` or `FX55` (20_memory.md R63). -/
theorem step_changes_mem {s t : State} (h : step s = .next t) (hm : t.mem ≠ s.mem) :
    ∃ w x, fetch s = .ok w ∧ (decode w = .ok (.ldBVx x) ∨ decode w = .ok (.ldMemVx x)) := by
  obtain ⟨-, rfl⟩ | ⟨-, op, r, -, -, rfl⟩ | ⟨-, w, i, hw, hi, hdone⟩ := step_ends h
  · exact absurd rfl hm
  · exact absurd rfl hm
  · obtain ⟨⟨x, rfl | rfl⟩, -⟩ := hdone.mem.resolve_left hm
    · exact ⟨w, x, hw, .inl hi⟩
    · exact ⟨w, x, hw, .inr hi⟩

/-- A cycle changes any component but `HALTED` and `FAULT` only by an instruction the access summary gives it
to (10_state.md R37). -/
theorem step_changes {s t : State} {c : Component} (h : step s = .next t) (hc : ¬ Unchanged s t c)
    (hfatal : ¬ (c = .halted ∨ c = .fault)) :
    ∃ w i, fetch s = .ok w ∧ decode w = .ok i ∧ MayWrite s i c := by
  obtain ⟨-, rfl⟩ | ⟨-, op, r, -, -, rfl⟩ | ⟨-, w, i, hw, hi, hdone⟩ := step_ends h
  · exact absurd (onlyChanges_refl (fun _ => False) t c id) hc
  · exact absurd (onlyChanges_takeFatal op r s c hfatal) hc
  · exact ⟨w, i, hw, hi, by_contra fun hnot => hc (hdone.frame c hnot)⟩

theorem onlyChanges_tickTimers (s : State) : OnlyChanges (fun c => c = .dt ∨ c = .st) s (tickTimers s) := by
  obtain ⟨dt, st, ht⟩ := tickTimers_eq s
  rw [ht]
  intro c hc
  cases c with
  | dt => exact absurd (.inl rfl) hc
  | st => exact absurd (.inr rfl) hc
  | _ => rfl

theorem onlyChanges_key (s : State) (k : Option Nibble) : OnlyChanges (· = .key) s { s with key := k } := by
  intro c hc
  cases c with
  | key => exact absurd rfl hc
  | _ => rfl

/-- A component but `HALTED` and `FAULT` is changed by a cycle of an instruction that may write it, by a tick
if it is a timer, by a key event if it is the latch, and by nothing else. -/
theorem hostStep_changes {op : HostOp} {s t : State} {c : Component} (h : hostStep op s = .next t)
    (hc : ¬ Unchanged s t c) (hfatal : ¬ (c = .halted ∨ c = .fault)) :
    (op = .cycle ∧ ∃ w i, fetch s = .ok w ∧ decode w = .ok i ∧ MayWrite s i c) ∨
    (op = .tickTimers ∧ (c = .dt ∨ c = .st)) ∨ ((∃ k, op = .setKey k) ∧ c = .key) := by
  obtain ⟨hop, h⟩ | ⟨hop, rfl⟩ | ⟨hop, k, rfl⟩ | rfl := hostStep_cases h
  · exact .inl ⟨hop, step_changes h hc hfatal⟩
  · exact .inr (.inl ⟨hop, by_contra fun hnot => hc (onlyChanges_tickTimers s c hnot)⟩)
  · exact .inr (.inr ⟨hop, by_contra fun hnot => hc (onlyChanges_key s k c hnot)⟩)
  · exact absurd (onlyChanges_refl (fun _ => False) t c id) hc

/-- A component that is neither a timer, the latch, `HALTED` nor `FAULT` is changed by a cycle only. -/
theorem cycle_of_changes {op : HostOp} {s t : State} {c : Component} (h : hostStep op s = .next t)
    (hc : ¬ Unchanged s t c) (hother : c ∉ [.halted, .fault, .dt, .st, .key]) :
    op = .cycle ∧ ∃ w i, fetch s = .ok w ∧ decode w = .ok i ∧ MayWrite s i c := by
  have hfatal : ¬ (c = .halted ∨ c = .fault) := by rintro (rfl | rfl) <;> simp at hother
  obtain hcycle | ⟨-, rfl | rfl⟩ | ⟨-, rfl⟩ := hostStep_changes h hc hfatal
  · exact hcycle
  · simp at hother
  · simp at hother
  · simp at hother

/-! The columns of the access summary (10_state.md R37): which instructions may write a component. -/

theorem mayWrite_i {s : State} {i : Instr} : MayWrite s i .i →
    (∃ nnn, i = .ldI nnn) ∨ (∃ x, i = .addIVx x) ∨ ∃ x, i = .ldFVx x := by
  cases i <;> simp [MayWrite]

theorem mayWrite_sp {s : State} {i : Instr} : MayWrite s i .sp → (∃ nnn, i = .call nnn) ∨ i = .ret := by
  cases i <;> simp [MayWrite]

theorem mayWrite_stack {s : State} {i : Instr} {j : Fin 16} : MayWrite s i (.stack j) → ∃ nnn, i = .call nnn := by
  cases i <;> simp [MayWrite]

theorem mayWrite_dt {s : State} {i : Instr} : MayWrite s i .dt → ∃ x, i = .ldDtVx x := by
  cases i <;> simp [MayWrite]

theorem mayWrite_st {s : State} {i : Instr} : MayWrite s i .st → ∃ x, i = .ldStVx x := by
  cases i <;> simp [MayWrite]

theorem not_mayWrite_key (s : State) (i : Instr) : ¬ MayWrite s i .key := by
  cases i <;> simp [MayWrite]

theorem hostStep_changes_i {op : HostOp} {s t : State} (h : hostStep op s = .next t) (hc : t.i ≠ s.i) :
    op = .cycle ∧ ∃ w, fetch s = .ok w ∧ ((∃ nnn, decode w = .ok (.ldI nnn)) ∨
      (∃ x, decode w = .ok (.addIVx x)) ∨ ∃ x, decode w = .ok (.ldFVx x)) := by
  obtain ⟨hop, w, i, hw, hi, hmay⟩ := cycle_of_changes (c := .i) h hc (by decide)
  refine ⟨hop, w, hw, ?_⟩
  obtain ⟨nnn, rfl⟩ | ⟨x, rfl⟩ | ⟨x, rfl⟩ := mayWrite_i hmay
  · exact .inl ⟨nnn, hi⟩
  · exact .inr (.inl ⟨x, hi⟩)
  · exact .inr (.inr ⟨x, hi⟩)

theorem hostStep_changes_sp {op : HostOp} {s t : State} (h : hostStep op s = .next t) (hc : t.sp ≠ s.sp) :
    op = .cycle ∧ ∃ w, fetch s = .ok w ∧ ((∃ nnn, decode w = .ok (.call nnn)) ∨ decode w = .ok .ret) := by
  obtain ⟨hop, w, i, hw, hi, hmay⟩ := cycle_of_changes (c := .sp) h hc (by decide)
  refine ⟨hop, w, hw, ?_⟩
  obtain ⟨nnn, rfl⟩ | rfl := mayWrite_sp hmay
  · exact .inl ⟨nnn, hi⟩
  · exact .inr hi

theorem hostStep_changes_stack {op : HostOp} {s t : State} (h : hostStep op s = .next t)
    (hc : t.stack ≠ s.stack) :
    op = .cycle ∧ ∃ w nnn, fetch s = .ok w ∧ decode w = .ok (.call nnn) := by
  obtain ⟨j, hj⟩ : ∃ j : Fin 16, t.stack[j.val] ≠ s.stack[j.val] := by
    by_contra! hsame
    exact hc (Vector.ext fun k hk => hsame ⟨k, hk⟩)
  obtain ⟨hop, w, i, hw, hi, hmay⟩ := cycle_of_changes (c := .stack j) h hj (by simp)
  obtain ⟨nnn, rfl⟩ := mayWrite_stack hmay
  exact ⟨hop, w, nnn, hw, hi⟩

theorem hostStep_changes_dt {op : HostOp} {s t : State} (h : hostStep op s = .next t) (hc : t.dt ≠ s.dt) :
    op = .tickTimers ∨ op = .cycle ∧ ∃ w x, fetch s = .ok w ∧ decode w = .ok (.ldDtVx x) := by
  obtain ⟨hop, w, i, hw, hi, hmay⟩ | ⟨hop, -⟩ | ⟨-, hkey⟩ := hostStep_changes (c := .dt) h hc (by decide)
  · obtain ⟨x, rfl⟩ := mayWrite_dt hmay
    exact .inr ⟨hop, w, x, hw, hi⟩
  · exact .inl hop
  · cases hkey

theorem hostStep_changes_st {op : HostOp} {s t : State} (h : hostStep op s = .next t) (hc : t.st ≠ s.st) :
    op = .tickTimers ∨ op = .cycle ∧ ∃ w x, fetch s = .ok w ∧ decode w = .ok (.ldStVx x) := by
  obtain ⟨hop, w, i, hw, hi, hmay⟩ | ⟨hop, -⟩ | ⟨-, hkey⟩ := hostStep_changes (c := .st) h hc (by decide)
  · obtain ⟨x, rfl⟩ := mayWrite_st hmay
    exact .inr ⟨hop, w, x, hw, hi⟩
  · exact .inl hop
  · cases hkey

theorem hostStep_changes_key {op : HostOp} {s t : State} (h : hostStep op s = .next t) (hc : t.key ≠ s.key) :
    ∃ k, op = .setKey k := by
  obtain ⟨-, w, i, -, -, hmay⟩ | ⟨-, htimer⟩ | ⟨hop, -⟩ := hostStep_changes (c := .key) h hc (by decide)
  · exact absurd hmay (not_mayWrite_key s i)
  · simp at htimer
  · exact hop

theorem hostStep_changes_mem {op : HostOp} {s t : State} (h : hostStep op s = .next t) (hc : t.mem ≠ s.mem) :
    op = .cycle ∧ ∃ w x, fetch s = .ok w ∧ (decode w = .ok (.ldBVx x) ∨ decode w = .ok (.ldMemVx x)) := by
  obtain ⟨hop, h⟩ | ⟨-, rfl⟩ | ⟨-, k, rfl⟩ | rfl := hostStep_cases h
  · exact ⟨hop, step_changes_mem h hc⟩
  · obtain ⟨dt, st, ht⟩ := tickTimers_eq s
    exact absurd (congrArg State.mem ht) hc
  · exact absurd rfl hc
  · exact absurd rfl hc

/-- Settles O44, component by component. -/
theorem writersOfEachComponent : Obligations.WritersOfEachComponent := fun _ _ _ h =>
  ⟨hostStep_changes_i h, hostStep_changes_sp h, hostStep_changes_stack h, hostStep_changes_dt h,
    hostStep_changes_st h, hostStep_changes_key h, hostStep_changes_mem h⟩

end Sys2Proof.Machine
end

section
/-! The canonical form of memory is determined by its content, and the reset state is a constructed session
(10_state.md R32, R39; 70_reset_and_hazards.md R280) -/

namespace Sys2Proof.Machine

namespace Memory

/-- A canonical memory lists a byte exactly when it reads so and an unlisted address does not. -/
theorem mem_iff_read {m : Memory} (hm : m.wf) (c : Host.Cell) : c ∈ m ↔ m.read c.1 = c.2 ∧ c.2 ≠ blank c.1 := by
  induction m with
  | nil => simp +contextual [eq_comm]
  | cons d m ih =>
    obtain ⟨hsorted, hlisted⟩ := hm
    obtain ⟨hd, hsorted⟩ := List.pairwise_cons.1 hsorted
    have htail := ih ⟨hsorted, fun e he => hlisted e (List.mem_cons_of_mem d he)⟩
    by_cases hcd : c.1 = d.1
    · have hnot : c ∉ m := fun hc => (hd c hc).ne' hcd
      have hdb := (hlisted d List.mem_cons_self).2
      simp only [List.mem_cons, hnot, or_false, read, hcd, if_true]
      constructor
      · rintro rfl; exact ⟨rfl, hdb⟩
      · exact fun h => Prod.ext hcd h.1.symm
    · have hne : c ≠ d := fun e => hcd (congrArg Prod.fst e)
      simp only [List.mem_cons, hne, false_or, read, if_neg hcd, htail]

/-- Two canonical memories that read alike list the same bytes, and sorted lists of the same members are
equal. -/
theorem eq_of_read_eq {m m' : Memory} (hm : m.wf) (hm' : m'.wf) (h : ∀ a < memSize, m.read a = m'.read a) :
    m = m' := by
  have hirrefl : Std.Irrefl fun c d : Host.Cell => c.1 < d.1 := ⟨fun _ => Nat.lt_irrefl _⟩
  have hantisymm : Std.Antisymm fun c d : Host.Cell => c.1 < d.1 := ⟨fun _ _ h₁ h₂ => absurd h₁ h₂.asymm⟩
  refine List.Pairwise.eq_of_mem_iff hm.1 hm'.1 fun c => ⟨fun hc => ?_, fun hc => ?_⟩
  · rw [mem_iff_read hm', ← h c.1 (hm.2 c hc).1, ← mem_iff_read hm]; exact hc
  · rw [mem_iff_read hm, h c.1 (hm'.2 c hc).1, ← mem_iff_read hm']; exact hc

end Memory

/-- Settles O42. -/
theorem canonicalMemoryIsDetermined : Obligations.CanonicalMemoryIsDetermined :=
  fun _ _ hm hm' h => Memory.eq_of_read_eq hm hm' h

/-- The default font (20_memory.md R56) as a construction argument. -/
def defaultFontVector : Vector Byte 80 := ⟨⟨defaultFont⟩, rfl⟩

/-- The empty program with the default font and the fill 0x00 is what unlisted addresses read as. -/
theorem constructByte_default (a : Nat) : constructByte [] defaultFontVector (fun _ => 0#8) a = Memory.blank a := by
  unfold constructByte Memory.blank
  split
  · next ha => exact (List.getD_eq_getElem defaultFont 0#8 ha).symm
  · next ha =>
    rw [List.getD_eq_default defaultFont 0#8 (Nat.le_of_not_lt ha)]
    simp

theorem tabulate_blank : Memory.tabulate Memory.blank = [] :=
  Memory.eq_of_read_eq (Memory.wf_tabulate _) Memory.wf_nil fun a ha => by
    rw [Memory.read_tabulate, if_pos ha, Memory.read_nil]

/-- Settles O53. -/
theorem resetIsAConstructedSession : Obligations.ResetIsAConstructedSession := by
  refine ⟨defaultFontVector, rfl, ?_⟩
  rw [construct, if_neg (by decide), funext constructByte_default, tabulate_blank]
  rfl

end Sys2Proof.Machine
end

section
/-! The call stack (10_state.md R26; 40_control_flow.md R103, R106) -/

namespace Sys2Proof.Machine

theorem exec_call_of_spPush {nnn : Addr} {s : State} {k : Fin 16} (hk : spPush s.sp = some k) :
    exec (.call nnn) s =
      .next { s with sp := some k, stack := s.stack.set k.val (s.pc + 2#16), pc := zextAddr nnn } := by
  simp only [exec, execCall, callTo, advance_sp, hk]
  rfl

theorem exec_ret_of_sp {s : State} {k : Fin 16} (hk : s.sp = some k) :
    exec .ret s = .next { s with pc := s.stack[k.val], sp := spPop k } := by
  simp only [exec, execRet, returnFromCall, advance_sp, hk]
  rfl

theorem spInt_congr {s t : State} (h : s.sp = t.sp) : s.spInt = t.spInt := by
  simp only [State.spInt, h]

/-- Settles O20: the return pops the frame the call pushed. -/
theorem callThenReturnRestores : Obligations.CallThenReturnRestores := by
  intro nnn s hroom
  obtain ⟨k, hk⟩ := Option.ne_none_iff_exists'.1 (mt (spPush_eq_none_iff s).1 hroom)
  refine ⟨_, exec_call_of_spPush hk, fun u hsp hstack => ⟨_, exec_ret_of_sp hsp, ?_, ?_⟩⟩
  · simp [hstack]
  · exact spInt_congr (spPop_spPush s.sp k hk)

end Sys2Proof.Machine
end

section
/-! `ST` is observable by nothing (10_state.md R29)

Two sessions that differ in `ST` only answer every operation alike: the relation `AlikeButSt` between their
outcomes is kept by every instruction, every host operation and every schedule. -/

namespace Sys2Proof.Machine

/-! ## Setting `ST`, and what commutes with it -/

/-- `s` with `ST` set to `b` (10_state.md R29), by no operation of the machine. -/
def State.withSt (b : Byte) (s : State) : State := { s with st := b }

@[simp] theorem withSt_key (b : Byte) (s : State) : (s.withSt b).key = s.key := rfl

@[simp] theorem withSt_halted (b : Byte) (s : State) : (s.withSt b).halted = s.halted := rfl

@[simp] theorem fetch_withSt (b : Byte) (s : State) : fetch (s.withSt b) = fetch s := rfl

theorem skipIf_withSt (f : Bool) (b : Byte) (s : State) : (s.withSt b).skipIf f = (s.skipIf f).withSt b := by
  cases f <;> rfl

theorem returnFromCall_withSt (b : Byte) (s : State) :
    returnFromCall (s.withSt b) = (returnFromCall s).map (State.withSt b) := by
  simp only [returnFromCall, State.withSt]
  cases s.sp <;> rfl

theorem callTo_withSt (target : Word) (b : Byte) (s : State) :
    callTo target (s.withSt b) = (callTo target s).map (State.withSt b) := by
  simp only [callTo, State.withSt]
  cases spPush s.sp <;> rfl

theorem drawSprite_withSt (vx vy : Byte) (n : Nat) (b : Byte) (s : State) :
    drawSprite vx vy n (s.withSt b) = (drawSprite vx vy n s).map (State.withSt b) := by
  simp only [drawSprite, State.withSt]
  cases loadBytes s.mem s.i.toNat n <;> rfl

theorem storeAtI_withSt (bs : List Byte) (b : Byte) (s : State) :
    storeAtI bs (s.withSt b) = (storeAtI bs s).map (State.withSt b) := by
  simp only [storeAtI, State.withSt]
  cases storeBytes s.mem s.i.toNat bs <;> rfl

theorem loadFromI_withSt (x : Nibble) (b : Byte) (s : State) :
    loadFromI x (s.withSt b) = (loadFromI x s).map (State.withSt b) := by
  simp only [loadFromI, State.withSt]
  cases loadBytes s.mem s.i.toNat (x.toNat + 1) <;> rfl

/-! ## Operations that do not show `ST` -/

/-- Two outcomes that differ in the `ST` of their next states only. -/
inductive AlikeButSt : Host.Outcome State Fault Refusal → Host.Outcome State Fault Refusal → Prop
  | next (t : State) (b : Byte) : AlikeButSt (.next t) (.next (t.withSt b))
  | fault (r : Fault) : AlikeButSt (.fault r) (.fault r)
  | refused (r : Refusal) : AlikeButSt (.refused r) (.refused r)

theorem AlikeButSt.eq_next {t : State} {o : Host.Outcome State Fault Refusal} (h : AlikeButSt (.next t) o) :
    ∃ b, o = .next (t.withSt b) := by
  cases h with
  | next _ b => exact ⟨b, rfl⟩

theorem AlikeButSt.eq_refused {r : Refusal} {o : Host.Outcome State Fault Refusal}
    (h : AlikeButSt (.refused r) o) : o = .refused r := by
  cases h; rfl

/-- The operation shows `ST` to nothing but `ST`: run on states alike but for it, it answers alike but for
it. -/
def HidesSt (f : State → Host.Outcome State Fault Refusal) : Prop :=
  ∀ b s, AlikeButSt (f s) (f (s.withSt b))

theorem HidesSt.of_update {g : State → State} (hg : ∀ b s, g (s.withSt b) = (g s).withSt b) :
    HidesSt fun s => .next (g s) := by
  intro b s
  simp only [hg]
  exact .next _ b

/-- A cycle that may raise a fatal hides `ST` when its instruction's meaning does. -/
theorem HidesSt.of_commit {op : Word} {g : State → Except Raised State}
    (hg : ∀ b s, g (s.withSt b) = (g s).map (State.withSt b)) : HidesSt fun s => commit op s (g s) := by
  intro b s
  simp only [hg]
  cases g s with
  | ok t => exact .next t b
  | error r => exact .next (takeFatal (some op) r s) b

/-- `FX0A` waits or takes the key, whatever `ST` is (43_keys_timers.md R207). -/
theorem execLdVxK_hidesSt (x : Nibble) : HidesSt (execLdVxK x) := by
  intro b s
  simp only [execLdVxK, withSt_key]
  cases s.key with
  | none => exact .next s.advance.rewind b
  | some k => exact .next (s.advance.setV x (k.setWidth 8)) b

/-- `FX18` leaves the same `ST`, whatever it was (43_keys_timers.md R209). -/
theorem execLdStVx_hidesSt (x : Nibble) : HidesSt (execLdStVx x) :=
  fun _ s => .next { s.advance with st := s.getV x } (s.getV x)

/-- No instruction reads `ST` (10_state.md R29). -/
theorem exec_hidesSt (i : Instr) : HidesSt (exec i) := by
  cases i with
  | ret => exact .of_commit fun b s => returnFromCall_withSt b s.advance
  | sys nnn => exact .of_commit (g := fun _ => .error ⟨.legacyCall, none⟩) fun _ _ => rfl
  | call nnn => exact .of_commit fun b s => callTo_withSt _ b s.advance
  | drw x y n => exact .of_commit fun b s => drawSprite_withSt _ _ _ b s.advance
  | ldBVx _ | ldMemVx _ => exact .of_commit fun b s => storeAtI_withSt _ b s.advance
  | ldVxMem x => exact .of_commit fun b s => loadFromI_withSt x b s.advance
  | seImm _ _ | sneImm _ _ | seReg _ _ | sneReg _ _ | skp _ | sknp _ =>
    exact .of_update fun b s => skipIf_withSt _ b s.advance
  | ldVxK x => exact execLdVxK_hidesSt x
  | ldStVx x => exact execLdStVx_hidesSt x
  | _ => exact .of_update fun _ _ => rfl

/-! ## `ST` in a session -/

/-- Fetch and decode depend on `PC` and `MEM` only, so a cycle hides `ST` as its instruction does. -/
theorem step_hidesSt : HidesSt step := by
  intro b s
  cases hh : s.halted with
  | true =>
    simp only [step, withSt_halted, hh, if_true]
    exact .next s b
  | false =>
    simp only [step, withSt_halted, fetch_withSt, hh, Bool.false_eq_true, if_false]
    cases fetch s with
    | error r => exact .next (takeFatal none r s) b
    | ok op =>
      cases hi : decode op with
      | error e => simp only [hi]; exact .next (takeFatal _ _ s) b
      | ok i => simp only [hi]; exact exec_hidesSt i b s

/-- A tick changes `ST` itself, and nothing else by it (43_keys_timers.md R212). -/
theorem tickTimers_withSt (b : Byte) (s : State) : ∃ b', tickTimers (s.withSt b) = (tickTimers s).withSt b' := by
  unfold tickTimers
  cases hh : s.halted with
  | true => exact ⟨b, by simp [hh]⟩
  | false => exact ⟨if 0#8 < b then b - 1#8 else b, by simp [hh, State.withSt]⟩

theorem tickTimers_hidesSt : HidesSt fun s => .next (tickTimers s) := by
  intro b s
  obtain ⟨b', hb'⟩ := tickTimers_withSt b s
  simp only [hb']
  exact .next _ b'

theorem setKey_hidesSt (k : Option Nat) : HidesSt (setKey k) := by
  intro b s
  cases k with
  | none => exact .next { s with key := none } b
  | some n =>
    simp only [setKey]
    split
    · exact .next { s with key := some (BitVec.ofNat 4 n) } b
    · exact .refused _

theorem hostStep_hidesSt (op : HostOp) : HidesSt (hostStep op) := by
  cases op with
  | cycle => exact step_hidesSt
  | tickTimers => exact tickTimers_hidesSt
  | setKey k => exact setKey_hidesSt k
  | readFramebuffer | snapshot | readStatus => exact .of_update (g := id) fun _ _ => rfl

theorem runSession_hidesSt (ops : List HostOp) : HidesSt (runSession ops) := by
  induction ops with
  | nil => exact fun b s => .next s b
  | cons op ops ih =>
    intro b s
    have hop := hostStep_hidesSt op b s
    simp only [runSession]
    generalize hostStep op s = o, hostStep op (s.withSt b) = o' at hop ⊢
    cases hop with
    | next t b' => exact ih b' t
    | fault r => exact .fault r
    | refused r => exact .refused r

/-- No read of the host returns `ST` (60_exceptions.md R269 to R272). -/
theorem hostResult_withSt (op : HostOp) (b : Byte) (s : State) : hostResult op (s.withSt b) = hostResult op s := by
  cases op <;> rfl

/-- Settles O51, from `runSession_hidesSt` and `hostResult_withSt`. -/
theorem soundTimerIsUnobservable : Obligations.SoundTimerIsUnobservable := by
  intro ops s b
  have halike := runSession_hidesSt ops b s
  refine ⟨fun t ht => ?_, fun r hr => ?_⟩
  · rw [ht] at halike
    obtain ⟨b', hb'⟩ := halike.eq_next
    exact ⟨b', hb', fun op => hostResult_withSt op b' t⟩
  · rw [hr] at halike
    exact halike.eq_refused

end Sys2Proof.Machine
end

section
/-! Memory (20_memory.md): the font region is never written, and a fetch reads what a store or the loading
convention left at `PC` -/

namespace Sys2Proof.Machine

/-! ## The font region (20_memory.md R53, R55) -/

/-- A store of bytes that succeeds starts above the font region, so it leaves the region as it was. -/
theorem storeBytes_read_font {m m' : Memory} {a : Nat} {bs : List Byte} (h : storeBytes m a bs = .ok m')
    {b : Nat} (hb : b < fontSize) : m'.read b = m.read b := by
  refine (storeBytes_keeps h).1 b fun k hk => ?_
  obtain rfl | ⟨hfont, -⟩ := storeBytes_range h
  · simp at hk
  · omega

theorem Completes.read_font {i : Instr} {s t : State} (h : Completes i s t) {b : Nat} (hb : b < fontSize) :
    t.mem.read b = s.mem.read b := by
  obtain hm | ⟨-, bs, hm⟩ := h.mem
  · rw [hm]
  · exact storeBytes_read_font hm hb

theorem step_read_font {s t : State} (h : step s = .next t) {b : Nat} (hb : b < fontSize) :
    t.mem.read b = s.mem.read b := by
  obtain ⟨-, rfl⟩ | ⟨-, op, r, -, -, rfl⟩ | ⟨-, w, i, -, -, hdone⟩ := step_ends h
  · rfl
  · rw [takeFatal_mem]
  · exact hdone.read_font hb

/-- No host operation writes the font region; all but the cycle leave the whole memory alone (20_memory.md
R63). -/
theorem hostStep_read_font {op : HostOp} {s t : State} (h : hostStep op s = .next t) {b : Nat}
    (hb : b < fontSize) : t.mem.read b = s.mem.read b := by
  obtain ⟨-, h⟩ | ⟨-, rfl⟩ | ⟨-, k, rfl⟩ | rfl := hostStep_cases h
  · exact step_read_font h hb
  · exact onlyChanges_tickTimers s (.mem b) (by simp)
  · rfl
  · rfl

/-- Settles O46, by induction over the schedule: each host operation keeps the byte. -/
theorem fontNeverChangesInASession : Obligations.FontNeverChangesInASession := by
  intro ops s t h a ha
  have hfont : a < fontSize := Nat.lt_succ_of_le ha
  refine runSession_induct (P := fun u => u.mem.read a = s.mem.read a) (fun op u u' hu hop => ?_) ops rfl h
  exact (hostStep_read_font hop hfont).trans hu

/-! ## The fetch and the instruction it hands over (20_memory.md R57; 40_control_flow.md R100) -/

theorem opcodeOf_eq_ofNat (hi lo : Byte) : opcodeOf hi lo = BitVec.ofNat 16 (hi.toNat * 256 + lo.toNat) := by
  refine BitVec.eq_of_toNat_eq ?_
  rw [opcodeOf_toNat, BitVec.toNat_ofNat]
  omega

/-- The fetch reads the bytes at `PC` and `PC + 1` as one big-endian number. -/
theorem fetch_eq_ofNat {s : State} (h : s.pc.toNat + 1 < memSize) :
    fetch s = .ok (BitVec.ofNat 16
      ((s.mem.read s.pc.toNat).toNat * 256 + (s.mem.read (s.pc.toNat + 1)).toNat)) := by
  rw [fetch_ok s h, opcodeOf_eq_ofNat]

theorem step_of_fetch_decode {s : State} {op : Word} {i : Instr} (hrun : s.halted = false)
    (hfetch : fetch s = .ok op) (hdecode : decode op = .ok i) : step s = exec i s := by
  simp [step, hrun, hfetch, hdecode]

/-- Settles O7. -/
theorem stepRunsDecodedInstruction : Obligations.StepRunsDecodedInstruction :=
  fun _ _ hrun hpc hdecode => step_of_fetch_decode hrun (fetch_eq_ofNat hpc) hdecode

/-! ## The loading convention (log entry 12) -/

@[simp] theorem withFetchWord_halted (s : State) (nbits w : Nat) : (s.withFetchWord nbits w).halted = false := rfl

/-- Two bytes fit where the word is placed: at `PC`, or at 0x200. -/
theorem withFetchWord_pc_lt (s : State) (nbits w : Nat) : (s.withFetchWord nbits w).pc.toNat + 1 < memSize := by
  simp only [State.withFetchWord, placeWord]
  split
  · assumption
  · decide

theorem withFetchWord_mem (s : State) (nbits w : Nat) :
    (s.withFetchWord nbits w).mem =
      (s.mem.write (s.withFetchWord nbits w).pc.toNat (highByte (tableWord nbits w))).write
        ((s.withFetchWord nbits w).pc.toNat + 1) (lowByte (tableWord nbits w)) := rfl

/-- Two writes at consecutive addresses read back, on a canonical memory. -/
theorem Memory.read_write_write {m : Memory} (hm : m.wf) {a : Nat} (ha : a < memSize) (hi lo : Byte) :
    ((m.write a hi).write (a + 1) lo).read a = hi ∧ ((m.write a hi).write (a + 1) lo).read (a + 1) = lo := by
  have hm' := m.wf_write hm a ha hi
  constructor
  · rw [read_write_ne _ _ _ _ (Nat.ne_add_one a), read_write _ hm.1, if_pos rfl]
  · rw [read_write _ hm'.1, if_pos rfl]

/-- The fetch reads the placed word back (20_memory.md R57). -/
theorem fetch_withFetchWord {s : State} (hm : s.mem.wf) (nbits w : Nat) :
    fetch (s.withFetchWord nbits w) = .ok (tableWord nbits w) := by
  have hpc := withFetchWord_pc_lt s nbits w
  obtain ⟨hhi, hlo⟩ := Memory.read_write_write hm (Nat.lt_of_succ_lt hpc) (highByte (tableWord nbits w))
    (lowByte (tableWord nbits w))
  rw [fetch_ok _ hpc, withFetchWord_mem, hhi, hlo, opcodeOf_bytes]

theorem tableWord_full {w : Nat} (hw : w < 65536) : tableWord 16 w = BitVec.ofNat 16 w :=
  congrArg (BitVec.ofNat 16) (Nat.mod_eq_of_lt hw)

/-- Settles O11. -/
theorem placedWordRunsNext : Obligations.PlacedWordRunsNext := by
  intro s w i hm hw hdecode
  have hfetch := tableWord_full hw ▸ fetch_withFetchWord hm 16 w
  exact ⟨withFetchWord_halted s 16 w, hfetch, step_of_fetch_decode (withFetchWord_halted s 16 w) hfetch hdecode⟩

/-! ## Fetching stored bytes (20_memory.md R61; 44_memory_transfer.md R230, R232) -/

/-- A cycle that stores bytes from `I` up and fits completes, and any state with its memory fetches two
consecutive stored bytes as the word they form. -/
theorem commit_storeAtI_fetch {s : State} (hm : s.mem.wf) (op : Word) (bs : List Byte)
    (hfont : fontSize ≤ s.i.toNat) (hfit : s.i.toNat + bs.length ≤ memSize) :
    ∃ t, commit op s (storeAtI bs s.advance) = .next t ∧
      ∀ (u : State) (k : Nat) (hi lo : Byte), u.mem = t.mem → u.pc.toNat = s.i.toNat + k →
        bs[k]? = some hi → bs[k + 1]? = some lo →
        fetch u = .ok (BitVec.ofNat 16 (hi.toNat * 256 + lo.toNat)) := by
  obtain ⟨m, hstore, -, hread⟩ := storeAtI_ok s.advance bs hfont hfit
  refine ⟨{ s.advance with mem := m }, by rw [hstore, commit], fun u k hi lo hmem hpc hhi hlo => ?_⟩
  obtain ⟨-, hstored⟩ := hread hm
  obtain ⟨hk, rfl⟩ := List.getElem?_eq_some_iff.1 hhi
  obtain ⟨hk', rfl⟩ := List.getElem?_eq_some_iff.1 hlo
  rw [fetch_eq_ofNat (by omega), hmem, hpc, ← hstored k hk, ← hstored (k + 1) hk']
  rfl

theorem firstRegs_getElem? {s : State} {x y : Nibble} (h : y.toNat ≤ x.toNat) :
    (s.firstRegs x)[y.toNat]? = some (s.getV y) := by
  have hy : y.toNat < (s.firstRegs x).length := by rw [firstRegs_length]; omega
  rw [List.getElem?_eq_getElem hy, firstRegs_get, BitVec.ofNat_toNat, BitVec.setWidth_eq]

/-- `FX55` that fits: a later fetch reads the bytes of two consecutive registers. -/
theorem exec_ldMemVx_fetch {x : Nibble} {s : State} (hm : s.mem.wf) (hfont : fontSize ≤ s.i.toNat)
    (hfit : s.i.toNat + x.toNat < memSize) :
    ∃ t, exec (.ldMemVx x) s = .next t ∧
      ∀ (u : State) (y z : Nibble), u.mem = t.mem → z.toNat = y.toNat + 1 → z.toNat ≤ x.toNat →
        u.pc.toNat = s.i.toNat + y.toNat →
        fetch u = .ok (BitVec.ofNat 16 ((s.getV y).toNat * 256 + (s.getV z).toNat)) := by
  obtain ⟨t, ht, hfetch⟩ := commit_storeAtI_fetch hm (encode (.ldMemVx x)) (s.firstRegs x) hfont
    (by rw [firstRegs_length]; exact hfit)
  refine ⟨t, ht, fun u y z hmem hyz hzx hpc => ?_⟩
  exact hfetch u y.toNat _ _ hmem hpc (firstRegs_getElem? (by omega)) (hyz ▸ firstRegs_getElem? hzx)

/-- `FX33` that fits: a later fetch reads two consecutive digits, each of which fits a byte. -/
theorem exec_ldBVx_fetch {x : Nibble} {s : State} (hm : s.mem.wf) (hfont : fontSize ≤ s.i.toNat)
    (hfit : s.i.toNat + 2 < memSize) :
    ∃ t, exec (.ldBVx x) s = .next t ∧ ∀ u : State, u.mem = t.mem →
      (u.pc.toNat = s.i.toNat → fetch u =
        .ok (BitVec.ofNat 16 ((s.getV x).toNat / 100 * 256 + (s.getV x).toNat / 10 % 10))) ∧
      (u.pc.toNat = s.i.toNat + 1 → fetch u =
        .ok (BitVec.ofNat 16 ((s.getV x).toNat / 10 % 10 * 256 + (s.getV x).toNat % 10))) := by
  obtain ⟨t, ht, hfetch⟩ := commit_storeAtI_fetch hm (encode (.ldBVx x)) (decimalDigits (s.getV x)) hfont hfit
  have hbyte := (s.getV x).isLt
  have hhundreds : (BitVec.ofNat 8 ((s.getV x).toNat / 100)).toNat = _ := Nat.mod_eq_of_lt (by omega)
  have htens : (BitVec.ofNat 8 ((s.getV x).toNat / 10 % 10)).toNat = _ := Nat.mod_eq_of_lt (by omega)
  have hones : (BitVec.ofNat 8 ((s.getV x).toNat % 10)).toNat = _ := Nat.mod_eq_of_lt (by omega)
  refine ⟨t, ht, fun u hmem => ⟨fun hpc => ?_, fun hpc => ?_⟩⟩
  · rw [hfetch u 0 _ _ hmem hpc rfl rfl, hhundreds, htens]
  · rw [hfetch u 1 _ _ hmem hpc rfl rfl, htens, hones]

/-- Settles O41: both instructions store by `storeAtI`, so a later fetch reads the listed bytes. -/
theorem storedBytesAreFetched : Obligations.StoredBytesAreFetched :=
  ⟨fun _ _ => exec_ldMemVx_fetch, fun _ _ => exec_ldBVx_fetch⟩

end Sys2Proof.Machine
end

section
/-! The decoder and the encoder (30_encoding.md R72 to R79)

`decode_encode` reads each packed word back by its fields; `decode_fits` inverts the decoder once: what it
accepts is the word's own instruction, what it rejects is an illegal encoding. The statements about sets of
words follow from these two. -/

namespace Sys2Proof

/-! ## Encode, then decode -/

theorem wellFormed_sys {nnn : Addr} : (Instr.sys nnn).wellFormed = true ↔ nnn ≠ 0x0E0#12 ∧ nnn ≠ 0x0EE#12 := by
  simp [Instr.wellFormed]

/-- Within a family the address field tells words of format `NNN` apart (R72). -/
theorem packNnn_inj {f : Nibble} {a b : Addr} : packNnn f a = packNnn f b ↔ a = b :=
  ⟨fun h => by simpa using congrArg fieldNnn h, congrArg _⟩

theorem decode_encode_sys {nnn : Addr} (hwf : (Instr.sys nnn).wellFormed = true) :
    decode (encode (.sys nnn)) = .ok (.sys nnn) := by
  obtain ⟨hcls, hret⟩ := wellFormed_sys.1 hwf
  have hcls' : packNnn 0x0#4 nnn ≠ 0x00E0#16 := fun h => hcls (packNnn_inj.1 h)
  have hret' : packNnn 0x0#4 nnn ≠ 0x00EE#16 := fun h => hret (packNnn_inj.1 h)
  simp [encode, decode, hcls', hret']

/-- The decoder reads back what each format packs: the family, then the sub-function where the family has
one (R75). -/
theorem decode_encode {i : Instr} (hwf : i.wellFormed = true) : decode (encode i) = .ok i := by
  cases i with
  | cls | ret => rfl
  | sys _ => exact decode_encode_sys hwf
  | jp _ | call _ | ldI _ | jpV0 _ | seImm _ _ | sneImm _ _ | ldImm _ _ | addImm _ _ | rnd _ _ | seReg _ _
  | sneReg _ _ | drw _ _ _ => simp [encode, decode]
  | ldReg _ _ | orReg _ _ | andReg _ _ | xorReg _ _ | addReg _ _ | subReg _ _ | shr _ _ | subnReg _ _ | shl _ _ =>
    simp [encode, decode, decodeAlu]
  | skp _ | sknp _ => simp [encode, decode, decodeKeySkip]
  | ldVxDt _ | ldVxK _ | ldDtVx _ | ldStVx _ | addIVx _ | ldFVx _ | ldBVx _ | ldMemVx _ | ldVxMem _ =>
    simp [encode, decode, decodeMisc]

/-- Settles O2. -/
theorem decodeOfEncodeIsIdentity : Obligations.DecodeOfEncodeIsIdentity := fun _ => decode_encode

/-! ## Decode, then encode -/

/-- The illegal encodings, family by family (R79). -/
def IllegalWord (op : Word) : Prop :=
  (op.toNat / 4096 = 0x5 ∧ op.toNat % 16 ≠ 0) ∨
  (op.toNat / 4096 = 0x8 ∧ op.toNat % 16 ∈ [0x8, 0x9, 0xA, 0xB, 0xC, 0xD, 0xF]) ∨
  (op.toNat / 4096 = 0x9 ∧ op.toNat % 16 ≠ 0) ∨
  (op.toNat / 4096 = 0xE ∧ op.toNat % 256 ∉ [0x9E, 0xA1]) ∨
  (op.toNat / 4096 = 0xF ∧ op.toNat % 256 ∉ [0x07, 0x0A, 0x15, 0x18, 0x1E, 0x29, 0x33, 0x55, 0x65])

/-- What the decoder may answer for a word: an instruction whose word it is, or its rejection as an illegal
encoding. -/
def FitsWord (op : Word) : Except DecodeError Instr → Prop
  | .ok i => i.wellFormed = true ∧ encode i = op
  | .error e => e = .illegalOpcode op ∧ IllegalWord op

section
variable {op : Word} {k : Nat} (hf : (fieldFamily op).toNat = k)
include hf

/-! A word whose family, and sub-function, is known is the packed word of the fields left. -/

theorem packNnn_of_family : packNnn (BitVec.ofNat 4 k) (fieldNnn op) = op := by
  rw [← nibble_eq_of_toNat hf, packNnn_fields]

theorem packXkk_of_family : packXkk (BitVec.ofNat 4 k) (fieldX op) (fieldKk op) = op := by
  rw [← nibble_eq_of_toNat hf, packXkk_fields]

theorem packXyn_of_family : packXyn (BitVec.ofNat 4 k) (fieldX op) (fieldY op) (fieldN op) = op := by
  rw [← nibble_eq_of_toNat hf, packXyn_fields]

theorem packXfn_of_family {m : Nat} (hkk : (fieldKk op).toNat = m) :
    packXkk (BitVec.ofNat 4 k) (fieldX op) (BitVec.ofNat 8 m) = op := by
  rw [← byte_eq_of_toNat hkk, packXkk_of_family hf]

theorem packXyf_of_family {m : Nat} (hn : (fieldN op).toNat = m) :
    packXyn (BitVec.ofNat 4 k) (fieldX op) (fieldY op) (BitVec.ofNat 4 m) = op := by
  rw [← nibble_eq_of_toNat hn, packXyn_of_family hf]

end

/-- A word of family 0 other than `00E0` and `00EE` is the word of a well-formed SYS (R78). -/
theorem sys_of_family {op : Word} (hf : (fieldFamily op).toNat = 0x0) (hcls : op ≠ 0x00E0#16)
    (hret : op ≠ 0x00EE#16) :
    (Instr.sys (fieldNnn op)).wellFormed = true ∧ encode (.sys (fieldNnn op)) = op := by
  have hop : packNnn 0x0#4 (fieldNnn op) = op := packNnn_of_family hf
  refine ⟨wellFormed_sys.2 ⟨fun h => hcls ?_, fun h => hret ?_⟩, hop⟩
  · rw [← hop, h]; rfl
  · rw [← hop, h]; rfl

theorem decodeAlu_fits {op : Word} (hf : (fieldFamily op).toNat = 0x8) : FitsWord op (decodeAlu op) := by
  unfold decodeAlu
  split
  case h_10 =>
    refine ⟨rfl, .inr (.inl ⟨fieldFamily_toNat op ▸ hf, ?_⟩)⟩
    have := (fieldN op).isLt
    rw [← fieldN_toNat]
    simp only [imp_false, List.mem_cons, List.not_mem_nil, or_false] at *
    omega
  all_goals next hn => exact ⟨rfl, packXyf_of_family hf hn⟩

theorem decodeKeySkip_fits {op : Word} (hf : (fieldFamily op).toNat = 0xE) : FitsWord op (decodeKeySkip op) := by
  unfold decodeKeySkip
  split
  · next hkk => exact ⟨rfl, packXfn_of_family hf hkk⟩
  · next hkk => exact ⟨rfl, packXfn_of_family hf hkk⟩
  · refine ⟨rfl, .inr (.inr (.inr (.inl ⟨fieldFamily_toNat op ▸ hf, ?_⟩)))⟩
    rw [← fieldKk_toNat]
    simp_all

theorem decodeMisc_fits {op : Word} (hf : (fieldFamily op).toNat = 0xF) : FitsWord op (decodeMisc op) := by
  unfold decodeMisc
  split
  case h_10 =>
    refine ⟨rfl, .inr (.inr (.inr (.inr ⟨fieldFamily_toNat op ▸ hf, ?_⟩)))⟩
    rw [← fieldKk_toNat]
    simp_all
  all_goals next hkk => exact ⟨rfl, packXfn_of_family hf hkk⟩

/-- Families 5 and 9 have one instruction each, whose low nibble is 0; every other word of theirs is illegal. -/
theorem fitsWord_xy0 {op : Word} {f : Nat} {i : Instr} (hwf : i.wellFormed = true)
    (henc : encode i = packXyn (BitVec.ofNat 4 f) (fieldX op) (fieldY op) 0x0#4) (hf : (fieldFamily op).toNat = f)
    (hill : op.toNat % 16 ≠ 0 → IllegalWord op) :
    FitsWord op (if fieldN op = 0x0#4 then .ok i else .error (.illegalOpcode op)) := by
  split
  · next hn => exact ⟨hwf, henc.trans (packXyf_of_family hf (congrArg BitVec.toNat hn))⟩
  · next hn => exact ⟨rfl, hill fun h => hn (nibble_eq_of_toNat ((fieldN_toNat op).trans h))⟩

/-- Every verdict of the decoder fits its word (R75, R79). Case `h_k` of the split is family `k - 1`. -/
theorem decode_fits (op : Word) : FitsWord op (decode op) := by
  unfold decode
  split
  case h_1 hf =>
    split
    · next hcls => exact ⟨rfl, hcls.symm⟩
    · split
      · next hret => exact ⟨rfl, hret.symm⟩
      · next hcls hret => exact sys_of_family hf hcls hret
  case h_2 hf | h_3 hf | h_11 hf | h_12 hf => exact ⟨rfl, packNnn_of_family hf⟩
  case h_4 hf | h_5 hf | h_7 hf | h_8 hf | h_13 hf => exact ⟨rfl, packXkk_of_family hf⟩
  case h_6 hf => exact fitsWord_xy0 rfl rfl hf fun hn => .inl ⟨fieldFamily_toNat op ▸ hf, hn⟩
  case h_9 hf => exact decodeAlu_fits hf
  case h_10 hf => exact fitsWord_xy0 rfl rfl hf fun hn => .inr (.inr (.inl ⟨fieldFamily_toNat op ▸ hf, hn⟩))
  case h_14 hf => exact ⟨rfl, packXyn_of_family hf⟩
  case h_15 hf => exact decodeKeySkip_fits hf
  case h_16 =>
    have := (fieldFamily op).isLt
    simp only [imp_false] at *
    exact decodeMisc_fits (by omega)

theorem decode_ok {op : Word} {i : Instr} (h : decode op = .ok i) : i.wellFormed = true ∧ encode i = op := by
  simpa [h, FitsWord] using decode_fits op

theorem decode_error {op : Word} {e : DecodeError} (h : decode op = .error e) :
    e = .illegalOpcode op ∧ IllegalWord op := by
  simpa [h, FitsWord] using decode_fits op

open Laws.TableRow in
/-- The word of every instruction lies in its row, format by format (R72, R77). -/
theorem encode_row (i : Instr) : Statement i := by
  cases i with
  | cls => exact cls
  | ret => exact ret
  | sys _ | jp _ | call _ | ldI _ | jpV0 _ => exact packNnn_row _ _
  | seImm _ _ | sneImm _ _ | ldImm _ _ | addImm _ _ | rnd _ _ => exact packXkk_row _ _ _
  | drw _ _ _ => exact packXyn_row_free _ _ _ _
  | seReg _ _ | sneReg _ _ | ldReg _ _ | orReg _ _ | andReg _ _ | xorReg _ _ | addReg _ _ | subReg _ _ | shr _ _
  | subnReg _ _ | shl _ _ => exact packXyn_row _ _ _ _
  | skp _ | sknp _ | ldVxDt _ | ldVxK _ | ldDtVx _ | ldStVx _ | addIVx _ | ldFVx _ | ldBVx _ | ldMemVx _
  | ldVxMem _ => exact packXfn_row _ _ _

/-- Settles O3. -/
theorem decodedInstructionEncodesBack : Obligations.DecodedInstructionEncodesBack := by
  intro op i h
  obtain ⟨hwf, rfl⟩ := decode_ok h
  exact ⟨hwf, rfl, encode_row i⟩

/-! ## The legacy-call and the illegal words -/

/-- Settles O4: by `decode_ok` such a word is that of a well-formed SYS; by `decode_encode` the SYS of a word's
address field is what it decodes to. -/
theorem legacyCallWords : Obligations.LegacyCallWords := by
  intro op
  rw [← fieldFamily_toNat]
  constructor
  · rintro ⟨nnn, h⟩
    obtain ⟨hwf, rfl⟩ := decode_ok h
    obtain ⟨hcls, hret⟩ := wellFormed_sys.1 hwf
    exact ⟨congrArg BitVec.toNat (fieldFamily_packNnn 0x0#4 nnn), fun e => hcls (packNnn_inj.1 e),
      fun e => hret (packNnn_inj.1 e)⟩
  · rintro ⟨hf, hcls, hret⟩
    obtain ⟨hwf, henc⟩ := sys_of_family hf hcls hret
    exact ⟨fieldNnn op, (congrArg decode henc).symm.trans (decode_encode hwf)⟩

/-- No instruction's word is an illegal encoding: the family and the sub-function of a packed word are those
it was packed with. -/
theorem not_illegalWord_encode (i : Instr) : ¬ IllegalWord (encode i) := by
  simp only [IllegalWord, ← fieldFamily_toNat, ← fieldN_toNat, ← fieldKk_toNat]
  cases i with
  | cls | ret => decide
  | _ => simp [encode]

/-- Settles O5: what is rejected is illegal by `decode_error`; an illegal word is not that of an instruction, so
`decode_ok` leaves the rejection. -/
theorem illegalOpcodeWords : Obligations.IllegalOpcodeWords := by
  intro op
  refine ⟨fun e h => (decode_error h).1, fun ⟨e, h⟩ => (decode_error h).2, fun hill => ?_⟩
  cases hd : decode op with
  | error e => exact ⟨e, rfl⟩
  | ok i =>
    obtain ⟨-, rfl⟩ := decode_ok hd
    exact absurd hill (not_illegalWord_encode i)

/-- Settles O1: closed words, evaluated. -/
theorem decodeReadsSpecWords : Obligations.DecodeReadsSpecWords := by
  unfold Obligations.DecodeReadsSpecWords
  decide

end Sys2Proof
end

section
/-! Fatals are taken precisely (60_exceptions.md R250 to R257)

Every instruction ends in `commit` of a result whose fatal is the one `fatalOf` gives (`exec_commits`), so a
cycle that halts records exactly that fatal. -/

namespace Sys2Proof.Machine

/-! ## The fatal of each shared operation -/

/-- The fatal an operation raises, or none. -/
def raised {α : Type} : Except Raised α → Option Raised
  | .ok _ => none
  | .error r => some r

theorem readFatal_of_lt {first last : Nat} (h : last < memSize) : readFatal first last = none := if_pos h

theorem readFatal_of_le {first last : Nat} (h : memSize ≤ last) :
    readFatal first last = some ⟨.memBounds, some (max first memSize)⟩ := if_neg (Nat.not_lt.2 h)

theorem writeFatal_of_font {first last : Nat} (h : first < fontSize) :
    writeFatal first last = some ⟨.fontWrite, some first⟩ := if_pos (Nat.le_of_lt_succ h)

theorem writeFatal_of_le {first last : Nat} (h : fontSize ≤ first) : writeFatal first last = readFatal first last :=
  if_neg (Nat.not_le.2 h)

theorem raised_loadBytes (m : Memory) (a n : Nat) :
    raised (loadBytes m a n) = if n = 0 then none else readFatal a (a + n - 1) := by
  by_cases hfit : n = 0 ∨ a + n ≤ memSize
  · rw [loadBytes_ok m a n hfit]
    split
    · rfl
    · rw [readFatal_of_lt (by omega)]; rfl
  · rw [loadBytes_error m a n (by omega) (by omega), if_neg (by omega), readFatal_of_le (by omega)]; rfl

theorem raised_storeBytes (m : Memory) (a : Nat) {bs : List Byte} {n : Nat} (hlen : bs.length = n + 1) :
    raised (storeBytes m a bs) = writeFatal a (a + n) := by
  have hne : bs ≠ [] := List.ne_nil_of_length_eq_add_one hlen
  by_cases hfont : a < fontSize
  · rw [storeBytes_font m a bs hne hfont, writeFatal_of_font hfont]; rfl
  · have hfont' : fontSize ≤ a := Nat.le_of_not_lt hfont
    rw [writeFatal_of_le hfont']
    by_cases hfit : a + n < memSize
    · obtain ⟨m', hm', -⟩ := storeBytes_ok m a bs (.inr ⟨hfont', by omega⟩)
      rw [hm', readFatal_of_lt hfit]; rfl
    · rw [storeBytes_bounds m a bs hne hfont' (by omega), readFatal_of_le (Nat.le_of_not_lt hfit)]; rfl

theorem raised_drawSprite (vx vy : Byte) (n : Nat) (s : State) :
    raised (drawSprite vx vy n s) = raised (loadBytes s.mem s.i.toNat n) := by
  unfold drawSprite
  cases loadBytes s.mem s.i.toNat n <;> rfl

theorem raised_storeAtI (bs : List Byte) (s : State) :
    raised (storeAtI bs s) = raised (storeBytes s.mem s.i.toNat bs) := by
  unfold storeAtI
  cases storeBytes s.mem s.i.toNat bs <;> rfl

theorem raised_loadFromI (x : Nibble) (s : State) :
    raised (loadFromI x s) = raised (loadBytes s.mem s.i.toNat (x.toNat + 1)) := by
  unfold loadFromI
  cases loadBytes s.mem s.i.toNat (x.toNat + 1) <;> rfl

theorem raised_returnFromCall (s : State) :
    raised (returnFromCall s) = if s.spInt = -1 then some ⟨.stackUnderflow, none⟩ else none := by
  unfold returnFromCall
  cases hsp : s.sp with
  | none => rw [if_pos (spInt_none hsp)]; rfl
  | some j => rw [if_neg (by rw [spInt_some hsp]; omega)]; rfl

theorem raised_callTo (target : Word) (s : State) :
    raised (callTo target s) = if s.spInt = 15 then some ⟨.stackOverflow, none⟩ else none := by
  unfold callTo
  cases hsp : spPush s.sp with
  | none => rw [if_pos ((spPush_eq_none_iff s).1 hsp)]; rfl
  | some k => rw [if_neg fun h => nomatch hsp.symm.trans ((spPush_eq_none_iff s).2 h)]; rfl

/-! ## The fatal of each instruction -/

/-- The instruction's cycle ends in `commit` of `g`, which raises the instruction's fatal or gives a state with
`HALTED` and `FAULT` as they were. -/
structure Commits (i : Instr) (s : State) (g : Except Raised State) : Prop where
  exec_eq : exec i s = commit (encode i) s g
  fatal : raised g = fatalOf i s
  running : ∀ t, g = .ok t → t.halted = s.halted ∧ t.fault = s.fault

/-- An instruction that raises no fatal commits its next state. -/
theorem commits_next {i : Instr} {s t : State} (he : exec i s = .next t) (hfatal : fatalOf i s = none)
    (hhalted : t.halted = s.halted) (hfault : t.fault = s.fault) : ∃ g, Commits i s g :=
  ⟨.ok t, he, hfatal.symm, by rintro _ ⟨⟩; exact ⟨hhalted, hfault⟩⟩

/-- An instruction whose completion is one of the access summary keeps `HALTED` and `FAULT`. -/
theorem Completes.running {i : Instr} {s t : State} (h : Completes i s t) :
    t.halted = s.halted ∧ t.fault = s.fault :=
  ⟨h.frame .halted (not_mayWrite_halted s i), h.frame .fault (not_mayWrite_fault s i)⟩

/-- An instruction that stores `n + 1` bytes at `I` raises the fatal of that write. -/
theorem commits_storeAtI {i : Instr} {s : State} {bs : List Byte} {n : Nat}
    (he : exec i s = commit (encode i) s (storeAtI bs s.advance)) (hlen : bs.length = n + 1)
    (hfatal : fatalOf i s = writeFatal s.i.toNat (s.i.toNat + n)) : ∃ g, Commits i s g := by
  refine ⟨_, he, ?_, fun t ht => ?_⟩
  · rw [raised_storeAtI, raised_storeBytes _ _ hlen, hfatal]; rfl
  · obtain ⟨-, ht⟩ := storeAtI_eq_ok ht
    rw [ht]; exact ⟨rfl, rfl⟩

/-- Every instruction ends its cycle in `commit` of a result that raises the fatal of the table of R250. -/
theorem exec_commits (i : Instr) (s : State) : ∃ g, Commits i s g := by
  cases i with
  | ret => exact ⟨_, rfl, raised_returnFromCall _, fun _ h => (completes_ret h).running⟩
  | sys _ => exact ⟨.error ⟨.legacyCall, none⟩, rfl, rfl, nofun⟩
  | call _ => exact ⟨_, rfl, raised_callTo _ _, fun _ h => (completes_call h).running⟩
  | drw x y n =>
    exact ⟨_, rfl, (raised_drawSprite _ _ _ _).trans (raised_loadBytes _ _ _), fun _ h => (completes_drw h).running⟩
  | ldBVx _ => exact commits_storeAtI rfl rfl rfl
  | ldMemVx x => exact commits_storeAtI rfl (firstRegs_length s x) rfl
  | ldVxMem x =>
    exact ⟨_, rfl, (raised_loadFromI _ _).trans (raised_loadBytes _ _ _), fun _ h => (completes_ldVxMem h).running⟩
  | ldVxK x =>
    obtain ⟨t, ht⟩ : ∃ t, execLdVxK x s = .next t := by
      unfold execLdVxK
      cases s.key <;> exact ⟨_, rfl⟩
    obtain ⟨hhalted, hfault⟩ := (completes_ldVxK ht).running
    exact commits_next ht rfl hhalted hfault
  | seImm _ _ | sneImm _ _ | seReg _ _ | sneReg _ _ | skp _ | sknp _ =>
    exact commits_next rfl rfl (skipIf_halted _ _) (skipIf_fault _ _)
  | _ => exact commits_next rfl rfl rfl rfl

theorem exec_of_fatalOf_some {i : Instr} {s : State} {r : Raised} (h : fatalOf i s = some r) :
    exec i s = .next (takeFatal (some (encode i)) r s) := by
  obtain ⟨g, hg⟩ := exec_commits i s
  have hr := hg.fatal.trans h
  rw [hg.exec_eq]
  cases g with
  | ok t => cases hr
  | error e => cases hr; rfl

theorem exec_of_fatalOf_none {i : Instr} {s : State} (h : fatalOf i s = none) :
    ∃ t, exec i s = .next t ∧ t.halted = s.halted ∧ t.fault = s.fault := by
  obtain ⟨g, hg⟩ := exec_commits i s
  have hr := hg.fatal.trans h
  cases g with
  | ok t => exact ⟨t, hg.exec_eq, hg.running t rfl⟩
  | error e => cases hr

/-! ## The fatal of a cycle -/

theorem fetch_error_eq {s : State} {r : Raised} (h : fetch s = .error r) :
    r = ⟨.memBounds, some (max s.pc.toNat memSize)⟩ := by
  obtain hpc | hpc := Nat.lt_or_ge (s.pc.toNat + 1) memSize
  · rw [fetch_ok s hpc] at h; cases h
  · rw [fetch_error s hpc] at h; cases h; rfl

/-- A cycle that halts a running block takes one fatal: the fetch's, the one of an illegal word, or the
instruction's (R257). -/
theorem step_halts {s t : State} (hrun : s.halted = false) (h : step s = .next t) (hhalt : t.halted = true) :
    (∃ r, fetch s = .error r ∧ t = takeFatal none r s) ∨
    (∃ op, fetch s = .ok op ∧ decode op = .error (.illegalOpcode op) ∧
      t = takeFatal (some op) ⟨.illegalOpcode, none⟩ s) ∨
    (∃ op i r, fetch s = .ok op ∧ decode op = .ok i ∧ fatalOf i s = some r ∧ t = takeFatal (some op) r s) := by
  obtain ⟨hh, -⟩ | ⟨-, r, hr, ht⟩ | ⟨-, op, hop, hd, ht⟩ | ⟨-, op, i, hop, hd, ht⟩ := step_cases h
  · rw [hrun] at hh; cases hh
  · cases ht; exact .inl ⟨r, hr, rfl⟩
  · cases ht; exact .inr (.inl ⟨op, hop, hd, rfl⟩)
  · cases hfatal : fatalOf i s with
    | none =>
      obtain ⟨u, hu, hhalted, -⟩ := exec_of_fatalOf_none hfatal
      cases ht.trans hu
      rw [hhalted, hrun] at hhalt; cases hhalt
    | some r =>
      cases ht.trans (exec_of_fatalOf_some hfatal)
      rw [(decode_ok hd).2]
      exact .inr (.inr ⟨op, i, r, hop, hd, hfatal, rfl⟩)

/-- Settles O12, from `step_halts`. -/
theorem fatalsArePrecise : Obligations.FatalsArePrecise := by
  intro s t hrun h hhalt
  obtain ⟨r, hr, rfl⟩ | ⟨op, hop, hd, rfl⟩ | ⟨op, i, r, hop, hd, hfatal, rfl⟩ := step_halts hrun h hhalt
  · obtain rfl := fetch_error_eq hr
    exact ⟨_, rfl, rfl, by simp [hr, memSize], by simp [hr]⟩
  · exact ⟨_, rfl, rfl, by simp [hop], by simp [hop, hd]⟩
  · exact ⟨_, rfl, rfl, by simp [hop], by simp [hop, hd, hfatal]⟩

theorem step_of_decode_error {s : State} {op : Word} {e : DecodeError} (hrun : s.halted = false)
    (hfetch : fetch s = .ok op) (hdecode : decode op = .error e) :
    step s = .next (takeFatal (some op) ⟨.illegalOpcode, none⟩ s) := by
  obtain ⟨rfl, -⟩ := decode_error hdecode
  simp [step, hrun, hfetch, hdecode, decodeFatal]

/-- Settles O6. -/
theorem decodeFatalIsTaken : Obligations.DecodeFatalIsTaken := by
  refine fun s op hrun hfetch => ⟨fun nnn hd => ?_, fun e hd => step_of_decode_error hrun hfetch hd⟩
  rw [step_of_fetch_decode hrun hfetch hd, exec_of_fatalOf_some rfl, (decode_ok hd).2]
  rfl

end Sys2Proof.Machine
end

section
/-! Control flow (40_control_flow.md R100 to R113)

Two rules carry the family: a running block whose `PC` is at or above 0xFFE takes `MEM_BOUNDS` at its next
fetch (`step_past_end`), and a jump or a skip changes `PC` only (`exec_jump`, `exec_skip`). -/

namespace Sys2Proof.Machine

/-! ## The words of the family -/

theorem decodes_of_encode {w : Nat} {i : Instr} (hwf : i.wellFormed = true) (h : encode i = BitVec.ofNat 16 w) :
    Decodes w i :=
  (congrArg decode h).symm.trans (decode_encode hwf)

/-- An illegal word is rejected with the word itself (30_encoding.md R79). -/
theorem decode_of_illegalWord {op : Word} (h : IllegalWord op) : decode op = .error (.illegalOpcode op) := by
  obtain ⟨hsame, hiff⟩ := illegalOpcodeWords op
  obtain ⟨e, he⟩ := hiff.2 h
  rw [he, hsame e he]

/-- The family and the low nibble of a word of format `XYN` written as a number (30_encoding.md R71, R72). -/
theorem ofNat_xyn_family_low (x y : Nibble) {f n : Nat} (hf : f < 16) (hn : n < 16) :
    (BitVec.ofNat 16 (f * 4096 + x.toNat * 256 + y.toNat * 16 + n)).toNat / 4096 = f ∧
    (BitVec.ofNat 16 (f * 4096 + x.toNat * 256 + y.toNat * 16 + n)).toNat % 16 = n := by
  have hx := x.isLt
  have hy := y.isLt
  rw [BitVec.toNat_ofNat, Nat.mod_eq_of_lt (by omega)]
  omega

/-- Words of the families 5 and 9 with a low nibble other than 0 are illegal (40_control_flow.md R112, R113). -/
theorem illegalWord_of_low_nibble (x y : Nibble) {f n : Nat} (hf : f = 5 ∨ f = 9) (h0 : 0 < n) (hn : n < 16) :
    IllegalWord (BitVec.ofNat 16 (f * 4096 + x.toNat * 256 + y.toNat * 16 + n)) := by
  obtain ⟨hfamily, hlow⟩ := ofNat_xyn_family_low x y (f := f) (by omega) hn
  have hne := hlow.trans_ne h0.ne'
  obtain rfl | rfl := hf
  · exact .inl ⟨hfamily, hne⟩
  · exact .inr (.inr (.inl ⟨hfamily, hne⟩))

theorem encode_sys (nnn : Addr) : encode (.sys nnn) = BitVec.ofNat 16 nnn.toNat := by
  rw [encode, packNnn_eq_ofNat, BitVec.toNat_zero, Nat.zero_mul, Nat.zero_add]

theorem encode_call (nnn : Addr) : encode (.call nnn) = BitVec.ofNat 16 (0x2000 + nnn.toNat) :=
  packNnn_eq_ofNat 0x2#4 nnn

/-! ## The fetch past the end of memory (40_control_flow.md R100; 60_exceptions.md R257) -/

theorem step_past_end {s : State} (hrun : s.halted = false) (hpc : 0xFFE ≤ s.pc.toNat) :
    step s = .next (haltedWith s .memBounds none (some (max s.pc.toNat 4095))) :=
  step_fetch_error hrun (Nat.succ_le_succ hpc)

/-- Settles O8. -/
theorem fetchOutOfRangeHalts : Obligations.FetchOutOfRangeHalts := by
  refine fun s hrun => ⟨fun hpc => ?_, fun hpc => ?_⟩
  · rw [step_past_end hrun (Nat.le_of_succ_le hpc), Nat.max_eq_left hpc]
  · rw [step_past_end hrun hpc.ge, hpc]; rfl

/-! ## Jumps (40_control_flow.md R105, R109) -/

theorem zextAddr_toNat (nnn : Addr) : (zextAddr nnn).toNat = nnn.toNat :=
  BitVec.toNat_setWidth_of_le (by decide)

/-- The sum of `BNNN` is at most 0x10FE, so it does not wrap (40_control_flow.md R109). -/
theorem jumpV0Target_toNat (nnn : Addr) (s : State) :
    (jumpV0Target nnn s).toNat = nnn.toNat + (s.getV 0#4).toNat := by
  have hnnn := nnn.isLt
  have hv := (s.getV 0#4).isLt
  rw [jumpV0Target, BitVec.toNat_add, zextAddr_toNat, BitVec.toNat_setWidth_of_le (by decide)]
  omega

/-- An instruction that jumps to `w` changes `PC` only, and faults at the next fetch when no word is at `w`. -/
theorem exec_jump {i : Instr} {s : State} {w : Word} {n : Nat} (he : exec i s = .next (s.advance.jump w))
    (hw : w.toNat = n) :
    ∃ t, exec i s = .next t ∧ t.pc.toNat = n ∧ OnlyChanges (fun c => c = .pc) s t ∧
      (s.halted = false → 0xFFE ≤ n → step t = .next (haltedWith t .memBounds none (some (max n 4095)))) := by
  subst hw
  exact ⟨_, he, rfl, onlyChanges_jump s w, fun hrun => step_past_end (s := s.advance.jump w) hrun⟩

/-- Settles O15, from `exec_jump`. -/
theorem jumpSetsPc : Obligations.JumpSetsPc := fun nnn _ =>
  ⟨decodes_of_encode rfl (packNnn_eq_ofNat 0x1#4 nnn), exec_jump rfl (zextAddr_toNat nnn)⟩

/-- Settles O17, from `exec_jump`: the sum does not wrap. -/
theorem jumpV0AddsUnmasked : Obligations.JumpV0AddsUnmasked := fun nnn s =>
  ⟨decodes_of_encode rfl (packNnn_eq_ofNat 0xB#4 nnn), exec_jump rfl (jumpV0Target_toNat nnn s)⟩

/-! ## Skips (40_control_flow.md R102, R110 to R113) -/

theorem advance_skipIf_pc (s : State) (f : Bool) :
    (s.advance.skipIf f).pc = if f then s.pc + 4#16 else s.pc + 2#16 := by
  rw [skipIf_pc, advance_pc, BitVec.add_assoc]; rfl

/-- An instruction that skips when `p` holds changes `PC` only, by 4 or by 2. -/
theorem exec_skip {i : Instr} {s : State} {f : Bool} {p : Prop} [Decidable p]
    (he : exec i s = .next (s.advance.skipIf f)) (hf : f = true ↔ p) :
    ∃ t, exec i s = .next t ∧ t.pc = (if p then s.pc + 4#16 else s.pc + 2#16) ∧
      OnlyChanges (fun c => c = .pc) s t :=
  ⟨_, he, (advance_skipIf_pc s f).trans (if_congr hf rfl rfl), onlyChanges_skipIf s f⟩

/-- Settles O18, from `exec_skip`. -/
theorem immediateSkips : Obligations.ImmediateSkips := fun x kk _ =>
  ⟨decodes_of_encode rfl (packXkk_eq_ofNat 0x3#4 x kk), decodes_of_encode rfl (packXkk_eq_ofNat 0x4#4 x kk),
    exec_skip rfl beq_iff_eq, exec_skip rfl bne_iff_ne⟩

/-- Settles O19, from `exec_skip` and `illegalWord_of_low_nibble`. -/
theorem registerSkips : Obligations.RegisterSkips := fun x y _ =>
  ⟨decodes_of_encode rfl (packXyn_eq_ofNat 0x5#4 x y 0x0#4),
    decodes_of_encode rfl (packXyn_eq_ofNat 0x9#4 x y 0x0#4),
    fun _ h0 hn => ⟨decode_of_illegalWord (illegalWord_of_low_nibble x y (.inl rfl) h0 hn),
      decode_of_illegalWord (illegalWord_of_low_nibble x y (.inr rfl) h0 hn)⟩,
    exec_skip rfl beq_iff_eq, exec_skip rfl bne_iff_ne⟩

/-! ## The legacy call, the return and the call (40_control_flow.md R103, R104, R106) -/

/-- Settles O14. -/
theorem legacyCallHalts : Obligations.LegacyCallHalts := by
  refine fun nnn s => ⟨fun hcls hret => ?_, ?_⟩
  · exact decodes_of_encode (wellFormed_sys.2 ⟨hcls, hret⟩) (encode_sys nnn)
  · rw [exec_of_fatalOf_some rfl, encode_sys]; rfl

theorem returnFromCall_of_sp {s : State} {j : Fin 16} (hj : s.sp = some j) :
    returnFromCall s = .ok { s with pc := s.stack[j.val], sp := spPop j } := by
  simp only [returnFromCall, hj]

theorem callTo_of_spPush {s : State} {k : Fin 16} (hk : spPush s.sp = some k) (target : Word) :
    callTo target s = .ok { s with sp := some k, stack := s.stack.set k.val s.pc, pc := target } := by
  simp only [callTo, hk]

/-- Settles O13: the result is that of `exec_ret_of_sp`, its frame that of `completes_ret`. -/
theorem returnPopsTheStack : Obligations.ReturnPopsTheStack := by
  refine ⟨decodes_of_encode rfl rfl, fun s => ⟨fun hempty => ?_, fun j hj => ?_⟩⟩
  · exact exec_of_fatalOf_some (i := .ret) (if_pos (spInt_none hempty))
  · refine ⟨_, exec_ret_of_sp hj, rfl, ?_, (completes_ret (returnFromCall_of_sp hj)).frame⟩
    rw [spInt_some hj]
    exact spPop_int j

/-- The one stack entry a call may write is the slot it pushes (40_control_flow.md R106). -/
theorem mayWrite_call {s : State} {nnn : Addr} {k : Fin 16} (hk : spPush s.sp = some k) {c : Component}
    (hc : MayWrite s (.call nnn) c) : c = .pc ∨ c = .sp ∨ c = .stack k := by
  obtain hpc | hsp | ⟨j, hstack, hj⟩ := hc
  · exact .inl hpc
  · exact .inr (.inl hsp)
  · have hjk : j = k := Fin.ext (by exact_mod_cast hj.trans (spPush_spInt hk).symm)
    exact .inr (.inr (hjk ▸ hstack))

/-- Settles O16: the result is that of `exec_call_of_spPush`, its frame that of `completes_call`. -/
theorem callPushesReturnAddress : Obligations.CallPushesReturnAddress := by
  refine fun nnn s => ⟨decodes_of_encode rfl (encode_call nnn), fun hfull => ?_, fun hroom => ?_⟩
  · rw [← encode_call]
    exact exec_of_fatalOf_some (i := .call nnn) (if_pos hfull)
  · obtain ⟨k, hk⟩ := Option.ne_none_iff_exists'.1 (mt (spPush_eq_none_iff s).1 hroom)
    have hframe := (completes_call (callTo_of_spPush (s := s.advance) hk (zextAddr nnn))).frame
    refine ⟨_, k, exec_call_of_spPush hk, rfl, spPush_spInt hk, ?_, zextAddr_toNat nnn, ?_⟩
    · exact Vector.getElem_set_self k.isLt
    · exact hframe.mono fun _ => mayWrite_call hk

end Sys2Proof.Machine
end

section
/-! Register loads, the ALU group, the index register and the random byte (41_register_alu.md R130 to R162)

Every instruction of the family ends in one register write (`setV`), a result with its flag written last
(`setResultFlag`) or a write of `I` (`setI`); the frame of each is in the laws of the machine. What is left is
the words, the register reads after a result and its flag, and the values as numbers. -/

namespace Sys2Proof.Machine

/-! ## The words of the family -/

/-- A word of format `XKK` with its family and low byte added first (30_encoding.md R71, R72). -/
theorem packXkk_eq_ofNat_low (f x : Nibble) (kk : Byte) :
    packXkk f x kk = BitVec.ofNat 16 (f.toNat * 4096 + kk.toNat + x.toNat * 256) := by
  rw [packXkk_eq_ofNat, Nat.add_right_comm]

/-- A word of format `XYN` with its family and low nibble added first (30_encoding.md R71, R72). -/
theorem packXyn_eq_ofNat_low (f x y n : Nibble) :
    packXyn f x y n = BitVec.ofNat 16 (f.toNat * 4096 + n.toNat + x.toNat * 256 + y.toNat * 16) := by
  rw [packXyn_eq_ofNat, Nat.add_right_comm, Nat.add_right_comm (f.toNat * 4096)]

/-! ## A result and its flag (10_state.md R23) -/

theorem getV_setResultFlag_self {x : Nibble} (hx : x ≠ 0xF#4) (s : State) (b : Byte) (f : Bool) :
    (s.setResultFlag x b f).getV x = b := by
  rw [getV_setResultFlag, if_neg hx, if_pos rfl]

theorem getV_setResultFlag_flag (s : State) (x : Nibble) (b : Byte) (f : Bool) :
    (s.setResultFlag x b f).getV 0xF#4 = flagByte f := by
  rw [getV_setResultFlag, if_pos rfl]

theorem flagByte_toNat (f : Bool) : (flagByte f).toNat = f.toNat := by cases f <;> rfl

theorem flagByte_decide (p : Prop) [Decidable p] : flagByte (decide p) = if p then 1#8 else 0#8 :=
  if_congr decide_eq_true_iff rfl rfl

/-- An instruction that writes a result and its flag changes `PC`, `Vx` and `VF` only. The readings `g` and
`h` of a byte (itself, or as a number) are those in which the result and the flag are known. -/
theorem exec_setResultFlag {α β : Type} (g : Byte → α) (h : Byte → β) {i : Instr} {s : State} {x : Nibble}
    {b : Byte} {f : Bool} {n : α} {m : β} (he : exec i s = .next (s.advance.setResultFlag x b f))
    (hn : g b = n) (hm : h (flagByte f) = m) :
    ∃ t, exec i s = .next t ∧ (x ≠ 0xF#4 → g (t.getV x) = n) ∧ h (t.getV 0xF#4) = m ∧ t.pc = s.pc + 2#16 ∧
      OnlyChanges (fun c => c = .pc ∨ c = .v x ∨ c = .v 0xF#4) s t := by
  refine ⟨_, he, fun hx => ?_, ?_, rfl, onlyChanges_setResultFlag s x b f⟩
  · rwa [getV_setResultFlag_self hx]
  · rwa [getV_setResultFlag_flag]

/-! ## Register writes without a flag (41_register_alu.md R130, R131, R135 to R138, R153) -/

/-- Settles O21: both results go through `setV`, which writes no flag. -/
theorem immediateLoadsAndAdds : Obligations.ImmediateLoadsAndAdds := by
  refine fun x kk s => ⟨decodes_of_encode rfl (packXkk_eq_ofNat 0x6#4 x kk),
    decodes_of_encode rfl (packXkk_eq_ofNat 0x7#4 x kk), ?_, ?_⟩
  · exact ⟨_, rfl, getV_setV_self _ _ _, rfl, onlyChanges_setV s x _⟩
  · refine ⟨_, rfl, ?_, rfl, onlyChanges_setV s x _⟩
    rw [getV_setV_self, BitVec.toNat_add]

/-- Settles O22: a bit of each result is that of the two operands' bits. -/
theorem movesAndLogic : Obligations.MovesAndLogic := by
  intro x y s
  have hword := packXyn_eq_ofNat_low 0x8#4 x y
  refine ⟨decodes_of_encode rfl (hword 0x0#4), decodes_of_encode rfl (hword 0x1#4),
    decodes_of_encode rfl (hword 0x2#4), decodes_of_encode rfl (hword 0x3#4), ?_, ?_, ?_, ?_⟩
  · exact ⟨_, rfl, getV_setV_self _ _ _, rfl, onlyChanges_setV s x _⟩
  · exact ⟨_, rfl, rfl, fun b => by rw [getV_setV_self, BitVec.getLsbD_or], onlyChanges_setV s x _⟩
  · exact ⟨_, rfl, rfl, fun b => by rw [getV_setV_self, BitVec.getLsbD_and], onlyChanges_setV s x _⟩
  · exact ⟨_, rfl, rfl, fun b => by rw [getV_setV_self, BitVec.getLsbD_xor], onlyChanges_setV s x _⟩

/-- Settles O28: the frame is that of `completes_rnd`. -/
theorem randomByteIsMasked : Obligations.RandomByteIsMasked := by
  refine fun x kk s => ⟨decodes_of_encode rfl (packXkk_eq_ofNat 0xC#4 x kk), ?_⟩
  have hV : (s.advance.setV x (Config.rand8 s.draws &&& kk)).getV x = Config.rand8 s.draws &&& kk :=
    getV_setV_self _ _ _
  refine ⟨_, rfl, hV, rfl, fun b hb => ?_, rfl, (completes_rnd x kk s _).frame⟩
  exact (congrArg (·.getLsbD b) hV).trans (by rw [BitVec.getLsbD_and, hb, Bool.and_false])

/-! ## Sums and differences with their flags (41_register_alu.md R140 to R142) -/

/-- Settles O23, from `exec_setResultFlag`: the flag compares the unwrapped sum. -/
theorem addWithCarry : Obligations.AddWithCarry := fun x y _ =>
  ⟨decodes_of_encode rfl (packXyn_eq_ofNat_low 0x8#4 x y 0x4#4),
    exec_setResultFlag BitVec.toNat id rfl (BitVec.toNat_add _ _) (flagByte_decide _)⟩

theorem byte_sub_toInt (a b : Byte) : ((a - b).toNat : Int) = (a.toNat - b.toNat : Int) % 256 := by
  have ha := a.isLt
  have hb := b.isLt
  rw [BitVec.toNat_sub]
  omega

/-- Settles O24: the two instructions differ in the order of the operands only. -/
theorem subtractWithNoBorrow : Obligations.SubtractWithNoBorrow := fun x y _ =>
  ⟨decodes_of_encode rfl (packXyn_eq_ofNat_low 0x8#4 x y 0x5#4),
    decodes_of_encode rfl (packXyn_eq_ofNat_low 0x8#4 x y 0x7#4),
    exec_setResultFlag (fun r : Byte => (r.toNat : Int)) id rfl (byte_sub_toInt _ _) (flagByte_decide _),
    exec_setResultFlag (fun r : Byte => (r.toNat : Int)) id rfl (byte_sub_toInt _ _) (flagByte_decide _)⟩

/-! ## Shifts (41_register_alu.md R146, R148) -/

theorem shiftSource_toNat (x y : Nibble) (s : State) :
    (shiftSource x y s).toNat = if s.quirk = true then (s.getV x).toNat else (s.getV y).toNat :=
  apply_ite BitVec.toNat _ _ _

theorem shiftRight_one_toNat (src : Byte) : (src >>> 1).toNat = src.toNat / 2 := by
  rw [BitVec.toNat_ushiftRight, Nat.shiftRight_one]

theorem shiftLeft_one_toNat (src : Byte) : (src <<< 1).toNat = src.toNat * 2 % 256 := by
  rw [BitVec.toNat_shiftLeft, Nat.shiftLeft_eq]

theorem flagByte_lowBit_toNat (src : Byte) : (flagByte (lowBit src)).toNat = src.toNat % 2 := by
  rw [flagByte_toNat, lowBit, BitVec.getLsbD, Nat.toNat_testBit, Nat.pow_zero, Nat.div_one]

theorem flagByte_highBit_toNat (src : Byte) : (flagByte (highBit src)).toNat = src.toNat / 128 := by
  have hsrc := src.isLt
  rw [flagByte_toNat, highBit, BitVec.getLsbD, Nat.toNat_testBit]
  omega

/-- Settles O25, from `exec_setResultFlag`. -/
theorem shiftRightUnderQuirk : Obligations.ShiftRightUnderQuirk := by
  rintro x y s _ rfl
  rw [← shiftSource_toNat]
  exact ⟨decodes_of_encode rfl (packXyn_eq_ofNat_low 0x8#4 x y 0x6#4),
    exec_setResultFlag BitVec.toNat BitVec.toNat rfl (shiftRight_one_toNat _) (flagByte_lowBit_toNat _)⟩

/-- Settles O26, from `exec_setResultFlag`. -/
theorem shiftLeftUnderQuirk : Obligations.ShiftLeftUnderQuirk := by
  rintro x y s _ rfl
  rw [← shiftSource_toNat]
  exact ⟨decodes_of_encode rfl (packXyn_eq_ofNat_low 0x8#4 x y 0xE#4),
    exec_setResultFlag BitVec.toNat BitVec.toNat rfl (shiftLeft_one_toNat _) (flagByte_highBit_toNat _)⟩

/-! ## The index register (41_register_alu.md R150, R160, R162) -/

/-- Five times a byte fits in 16 bits (41_register_alu.md R162). -/
theorem glyphAddress_toNat (b : Byte) : (glyphAddress b).toNat = b.toNat * 5 := by
  have hb := b.isLt
  rw [glyphAddress, BitVec.toNat_ofNat, Nat.mod_eq_of_lt (by omega)]

theorem word_add_byte_toNat (w : Word) (b : Byte) :
    (w + b.setWidth 16).toNat = (w.toNat + b.toNat) % 65536 := by
  rw [BitVec.toNat_add, BitVec.toNat_setWidth_of_le (by decide)]

/-- An instruction that writes `I` changes `PC` and `I` only. -/
theorem exec_setI {i : Instr} {s : State} {w : Word} {n : Nat} (he : exec i s = .next (s.advance.setI w))
    (hw : w.toNat = n) :
    ∃ t, exec i s = .next t ∧ t.i.toNat = n ∧ t.pc = s.pc + 2#16 ∧
      OnlyChanges (fun c => c = .pc ∨ c = .i) s t :=
  ⟨_, he, hw, rfl, onlyChanges_setI s w⟩

/-- Settles O27, from `exec_setI`. -/
theorem indexRegisterWrites : Obligations.IndexRegisterWrites := fun x nnn _ =>
  ⟨decodes_of_encode rfl (packNnn_eq_ofNat 0xA#4 nnn),
    decodes_of_encode rfl (packXkk_eq_ofNat_low 0xF#4 x 0x1E#8),
    decodes_of_encode rfl (packXkk_eq_ofNat_low 0xF#4 x 0x29#8),
    exec_setI rfl (zextAddr_toNat nnn), exec_setI rfl (word_add_byte_toNat _ _), exec_setI rfl (glyphAddress_toNat _)⟩

end Sys2Proof.Machine
end

section
/-! The display (42_display.md R170 to R177)

A draw whose rows lie in memory is one fact, `drawSprite_fits`: it toggles the covered on-screen pixels and its
flag is the collision. The laws of R176 follow from it, since the second draw covers the same pixels. -/

namespace Sys2Proof.Machine

/-! ## The pixels of the screen (10_state.md R31) -/

/-- The framebuffer has 2048 pixels; past them nothing is lit. -/
theorem fbGet_off_screen (fb : Framebuffer) {k : Nat} (h : 2048 ≤ k) : fbGet fb k = false := by
  have hrow : 32 ≤ k / 64 := by omega
  rw [fbGet, Vector.getElem?_eq_none hrow]
  exact BitVec.getLsbD_zero

/-- Two framebuffers that agree on every screen position read alike. -/
theorem fbGet_congr_on_screen {fb fb' : Framebuffer}
    (h : ∀ px py, px < 64 → py < 32 → fbGet fb (px + py * 64) = fbGet fb' (px + py * 64)) (k : Nat) :
    fbGet fb k = fbGet fb' k := by
  obtain hk | hk := Nat.lt_or_ge k 2048
  · have hpos : k % 64 + k / 64 * 64 = k := Nat.mod_add_div' k 64
    exact hpos ▸ h (k % 64) (k / 64) (by omega) (by omega)
  · rw [fbGet_off_screen fb hk, fbGet_off_screen fb' hk]

/-- The pixel in column `px` of row `py` is bit `px` of that row. -/
theorem fbGet_row_column (fb : Framebuffer) {px py : Nat} (hx : px < 64) (hy : py < 32) :
    fbGet fb (px + py * 64) = fb[py].getLsbD px := by
  have hrow : (px + py * 64) / 64 = py := by omega
  have hcol : (px + py * 64) % 64 = px := by omega
  rw [fbGet, hrow, hcol, Vector.getElem?_eq_getElem hy, Option.getD_some]

theorem framebuffer_ext {fb fb' : Framebuffer} (h : ∀ k, fbGet fb k = fbGet fb' k) : fb = fb' := by
  refine Vector.ext fun py hy => BitVec.eq_of_getLsbD_eq fun px hx => ?_
  rw [← fbGet_row_column fb hx hy, ← fbGet_row_column fb' hx hy, h]

/-- A frame never needs a pixel off the screen: it reads 0 in every state. -/
theorem OnlyChanges.on_screen {p : Component → Prop} {s t : State} (h : OnlyChanges p s t) :
    OnlyChanges (fun c => p c ∧ ∀ k, c = .pixel k → k < 2048) s t := by
  intro c hc
  by_cases hp : p c
  · obtain ⟨k, rfl, hk⟩ : ∃ k, c = .pixel k ∧ 2048 ≤ k := by simpa [hp] using hc
    exact (fbGet_off_screen _ hk).trans (fbGet_off_screen _ hk).symm
  · exact h c hp

/-! ## Clear (42_display.md R171, R173) -/

/-- Settles O29: the frame is that of `completes_cls`. -/
theorem clearScreen : Obligations.ClearScreen := by
  refine ⟨decodes_of_encode rfl rfl, fun s => ⟨_, rfl, fbClear_get, rfl, ?_⟩⟩
  refine (completes_cls s).frame.on_screen.mono ?_
  rintro c ⟨rfl | ⟨k, rfl⟩, hk⟩
  · exact .inl rfl
  · exact .inr ⟨k, hk k rfl, rfl⟩

/-! ## What a draw does (42_display.md R174, R175) -/

/-- Some on-screen pixel that the sprite covers is lit in `fb` (42_display.md R175). -/
def SpriteHitsLit (s : State) (vx vy : Byte) (n : Nat) (fb : Framebuffer) : Prop :=
  ∃ px py, px < 64 ∧ py < 32 ∧ fbGet fb (px + py * 64) = true ∧ spriteCovers s vx vy n px py = true

/-- The `n` row bytes of the sprite at `I` (42_display.md R174). -/
def spriteRows (s : State) (n : Nat) : List Byte := (List.range n).map fun k => s.mem.read (s.i.toNat + k)

theorem spriteRows_getD {s : State} {n r : Nat} (hr : r < n) :
    (spriteRows s n).getD r 0#8 = s.mem.read (s.i.toNat + r) := by
  simp [spriteRows, hr]

/-- The drawing loop hits, of the pixels the sprite covers, those above the lower edge of the screen. -/
theorem rowsHit_spriteRows (s : State) (vx vy : Byte) (n px py : Nat) :
    rowsHit (spriteColumn vx) (spriteRow vy) (spriteRows s n) px py =
      (decide (py < 32) && spriteCovers s vx vy n px py) := by
  have hlen : (spriteRows s n).length = n := by simp [spriteRows]
  by_cases hrow : vy.toNat % 32 ≤ py ∧ py < vy.toNat % 32 + n
  · have hbyte := spriteRows_getD (s := s) (n := n) (r := py - vy.toNat % 32) (by omega)
    rw [rowsHit, hlen, spriteRow, hbyte, columnHit, spriteColumn, spritePixel, spriteCovers]
    simp [hrow, Bool.and_assoc]
  · have hout : ¬ (vy.toNat % 32 ≤ py ∧ py < vy.toNat % 32 + n ∧ py < 32) := by omega
    have hout' : ¬ (vx.toNat % 64 ≤ px ∧ px < vx.toNat % 64 + 8 ∧ vy.toNat % 32 ≤ py ∧
      py < vy.toNat % 32 + n) := by omega
    rw [rowsHit, hlen, spriteRow, decide_eq_false hout, spriteCovers, decide_eq_false hout']
    simp

/-- A draw whose rows lie in memory completes: it toggles exactly the on-screen pixels the sprite covers, and
its flag says whether one of them was lit. -/
theorem drawSprite_fits (vx vy : Byte) {n : Nat} {s : State} (hfit : n = 0 ∨ s.i.toNat + n ≤ memSize) :
    ∃ fb f, drawSprite vx vy n s = .ok (State.setFlag { s with fb := fb } f) ∧
      (∀ px py, px < 64 → py < 32 → fbGet fb (px + py * 64) =
        (fbGet s.fb (px + py * 64) ^^ spriteCovers s vx vy n px py)) ∧
      (f = true ↔ SpriteHitsLit s vx vy n s.fb) := by
  have hload : loadBytes s.mem s.i.toNat n = .ok (spriteRows s n) := loadBytes_ok _ _ _ hfit
  obtain ⟨hpixels, hflag⟩ := drawRows_spec (spriteColumn vx) (spriteRow vy) (spriteRows s n) (s.fb, false)
  refine ⟨_, _, by rw [drawSprite, hload], fun px py hx hy => ?_, ?_⟩
  · rw [hpixels px py hx, rowsHit_spriteRows, decide_eq_true hy, Bool.true_and]
  · rw [hflag]
    simp only [rowsHit_spriteRows, Bool.and_eq_true, decide_eq_true_eq, Bool.false_eq_true, false_or]
    exact exists₂_congr fun px py => by tauto

theorem exec_drw_of_ok {x y n : Nibble} {s t : State}
    (h : drawSprite (s.getV x) (s.getV y) n.toNat s.advance = .ok t) : exec (.drw x y n) s = .next t :=
  congrArg (commit _ s) h

@[simp] theorem getV_setFlag_flag (s : State) (f : Bool) : (s.setFlag f).getV 0xF#4 = flagByte f :=
  getV_setV_self _ _ _

theorem flagByte_eq_one_iff (f : Bool) : flagByte f = 1#8 ↔ f = true := by cases f <;> decide

theorem flagByte_eq_zero_or_one (f : Bool) : flagByte f = 0#8 ∨ flagByte f = 1#8 := by cases f <;> decide

/-- A row byte past the end of memory is the fatal of the first such address (42_display.md R175). -/
theorem fatalOf_drw_of_lt {x y n : Nibble} {s : State} (hn : n.toNat ≠ 0) (h : memSize < s.i.toNat + n.toNat) :
    fatalOf (.drw x y n) s = some ⟨.memBounds, some (max s.i.toNat memSize)⟩ :=
  (if_neg hn).trans (readFatal_of_le (by omega))

/-- Settles O30, from `drawSprite_fits` and `fatalOf_drw_of_lt`; the frame is that of `completes_drw`. -/
theorem drawTogglesSprite : Obligations.DrawTogglesSprite := by
  intro x y n s
  have hword := packXyn_eq_ofNat 0xD#4 x y n
  refine ⟨decodes_of_encode rfl hword, fun hfit => ?_, fun hn hpast => ?_⟩
  · obtain ⟨fb, f, hdraw, hpixels, hflag⟩ := drawSprite_fits (s.getV x) (s.getV y) (s := s.advance) hfit
    refine ⟨_, exec_drw_of_ok hdraw, hpixels, ?_, ?_, rfl, ?_⟩
    · rw [getV_setFlag_flag]; exact flagByte_eq_zero_or_one f
    · rw [getV_setFlag_flag, flagByte_eq_one_iff]; exact hflag
    · refine (completes_drw hdraw).frame.on_screen.mono ?_
      rintro c ⟨rfl | rfl | ⟨k, rfl⟩, hk⟩
      · exact .inl rfl
      · exact .inr (.inl rfl)
      · exact .inr (.inr ⟨k, hk k rfl, rfl⟩)
  · rw [exec_of_fatalOf_some (fatalOf_drw_of_lt hn hpast), encode, hword]; rfl

/-! ## The laws of draw (42_display.md R176) -/

theorem not_spriteHitsLit_of_clear {s : State} {vx vy : Byte} {n : Nat} {fb : Framebuffer}
    (h : ∀ k, fbGet fb k = false) : ¬ SpriteHitsLit s vx vy n fb := by
  rintro ⟨px, py, -, -, hlit, -⟩
  rw [h] at hlit; cases hlit

/-- Law (c): no collision on a clear screen. -/
theorem exec_drw_clear {x y n : Nibble} {s : State} (hfit : n.toNat = 0 ∨ s.i.toNat + n.toNat ≤ memSize)
    (hclear : ∀ k, fbGet s.fb k = false) : ∃ t, exec (.drw x y n) s = .next t ∧ t.getV 0xF#4 = 0#8 := by
  obtain ⟨fb, f, hdraw, -, hflag⟩ := drawSprite_fits (s.getV x) (s.getV y) (s := s.advance) hfit
  refine ⟨_, exec_drw_of_ok hdraw, ?_⟩
  rw [getV_setFlag_flag, Bool.eq_false_iff.2 fun hf => not_spriteHitsLit_of_clear hclear (hflag.1 hf)]
  rfl

/-- Laws (a) and (b): with `x` and `y` not `F` the first draw leaves the coordinates, `I` and the row bytes as
they were, so the second toggles the same pixels back. -/
theorem exec_drw_twice {x y n : Nibble} {s : State} (hfit : n.toNat = 0 ∨ s.i.toNat + n.toNat ≤ memSize)
    (hx : x ≠ 0xF#4) (hy : y ≠ 0xF#4) :
    ∃ t u, exec (.drw x y n) s = .next t ∧ exec (.drw x y n) t = .next u ∧
      (∀ k, fbGet u.fb k = fbGet s.fb k) ∧
      (u.getV 0xF#4 = 1#8 ↔ SpriteHitsLit s (s.getV x) (s.getV y) n.toNat t.fb) := by
  obtain ⟨fb, f, hdraw, hpixels, -⟩ := drawSprite_fits (s.getV x) (s.getV y) (s := s.advance) hfit
  obtain ⟨fb', f', hdraw', hpixels', hflag'⟩ := drawSprite_fits (s.getV x) (s.getV y)
    (s := (State.setFlag { s.advance with fb := fb } f).advance) hfit
  have hgetV : ∀ z : Nibble, z ≠ 0xF#4 → (State.setFlag { s.advance with fb := fb } f).getV z = s.getV z :=
    fun z hz => getV_setV_ne hz
  refine ⟨_, _, exec_drw_of_ok hdraw, exec_drw_of_ok (by rw [hgetV x hx, hgetV y hy]; exact hdraw'),
    fbGet_congr_on_screen fun px py hpx hpy => ?_, ?_⟩
  · calc fbGet fb' (px + py * 64)
        = (fbGet fb (px + py * 64) ^^ spriteCovers s (s.getV x) (s.getV y) n.toNat px py) :=
          hpixels' px py hpx hpy
      _ = ((fbGet s.fb (px + py * 64) ^^ spriteCovers s (s.getV x) (s.getV y) n.toNat px py) ^^
            spriteCovers s (s.getV x) (s.getV y) n.toNat px py) :=
          congrArg (· ^^ _) (hpixels px py hpx hpy)
      _ = fbGet s.fb (px + py * 64) := by rw [Bool.xor_assoc, Bool.xor_self, Bool.xor_false]
  · rw [getV_setFlag_flag, flagByte_eq_one_iff]; exact hflag'

/-- Settles O31, from `exec_drw_twice` and `exec_drw_clear`. -/
theorem drawTwiceRestores : Obligations.DrawTwiceRestores :=
  fun _ _ _ _ hfit => ⟨exec_drw_twice hfit, exec_drw_clear hfit⟩

end Sys2Proof.Machine
end

section
/-! Who writes and who reads the framebuffer (42_display.md R177)

The writers are the column of the access summary. That no other instruction reads it: setting the framebuffer
before the instruction equals setting it after, and `00E0` leaves the same screen whatever it was. -/

namespace Sys2Proof.Machine

theorem mayWrite_pixel {s : State} {i : Instr} {k : Nat} :
    MayWrite s i (.pixel k) → i = .cls ∨ ∃ x y n, i = .drw x y n := by
  cases i <;> simp [MayWrite]

theorem hostStep_changes_fb {op : HostOp} {s t : State} (h : hostStep op s = .next t) (hc : t.fb ≠ s.fb) :
    op = .cycle ∧ ∃ w, fetch s = .ok w ∧ (decode w = .ok .cls ∨ ∃ x y n, decode w = .ok (.drw x y n)) := by
  obtain ⟨k, hk⟩ := not_forall.1 (mt framebuffer_ext hc)
  obtain ⟨hop, w, i, hw, hi, hmay⟩ := cycle_of_changes (c := .pixel k) h hk (by simp)
  refine ⟨hop, w, hw, ?_⟩
  obtain rfl | ⟨x, y, n, rfl⟩ := mayWrite_pixel hmay
  · exact .inl hi
  · exact .inr ⟨x, y, n, hi⟩

/-! ## Setting the framebuffer, and what commutes with it -/

/-- `s` with `FB` set to `fb` (10_state.md R31), by no operation of the machine. -/
def State.withFb (fb : Framebuffer) (s : State) : State := { s with fb := fb }

@[simp] theorem withFb_key (fb : Framebuffer) (s : State) : (s.withFb fb).key = s.key := rfl

theorem skipIf_withFb (f : Bool) (fb : Framebuffer) (s : State) :
    (s.withFb fb).skipIf f = (s.skipIf f).withFb fb := by
  cases f <;> rfl

theorem returnFromCall_withFb (fb : Framebuffer) (s : State) :
    returnFromCall (s.withFb fb) = (returnFromCall s).map (State.withFb fb) := by
  simp only [returnFromCall, State.withFb]
  cases s.sp <;> rfl

theorem callTo_withFb (target : Word) (fb : Framebuffer) (s : State) :
    callTo target (s.withFb fb) = (callTo target s).map (State.withFb fb) := by
  simp only [callTo, State.withFb]
  cases spPush s.sp <;> rfl

theorem storeAtI_withFb (bs : List Byte) (fb : Framebuffer) (s : State) :
    storeAtI bs (s.withFb fb) = (storeAtI bs s).map (State.withFb fb) := by
  simp only [storeAtI, State.withFb]
  cases storeBytes s.mem s.i.toNat bs <;> rfl

theorem loadFromI_withFb (x : Nibble) (fb : Framebuffer) (s : State) :
    loadFromI x (s.withFb fb) = (loadFromI x s).map (State.withFb fb) := by
  simp only [loadFromI, State.withFb]
  cases loadBytes s.mem s.i.toNat (x.toNat + 1) <;> rfl

/-! ## Operations blind to the framebuffer -/

/-- The operation neither reads nor writes `FB`: setting it first equals setting it afterwards. -/
def FbBlind (f : State → Host.Outcome State Fault Refusal) : Prop :=
  ∀ fb s t, f s = .next t → f (s.withFb fb) = .next (t.withFb fb)

theorem FbBlind.of_update {g : State → State} (hg : ∀ fb s, g (s.withFb fb) = (g s).withFb fb) :
    FbBlind fun s => .next (g s) := by
  intro fb s t h
  cases h
  exact congrArg _ (hg fb s)

/-- A cycle that may raise a fatal is blind when its instruction's meaning is: the fatal is taken in the state
the cycle began in, whose screen it keeps. -/
theorem FbBlind.of_commit {op : Word} {g : State → Except Raised State}
    (hg : ∀ fb s, g (s.withFb fb) = (g s).map (State.withFb fb)) : FbBlind fun s => commit op s (g s) := by
  intro fb s t h
  simp only [hg]
  obtain hr | ⟨e, hr, rfl⟩ := commit_cases h
  · rw [hr]; rfl
  · rw [hr]; rfl

/-- `FX0A` waits or takes the key, whatever is on the screen (43_keys_timers.md R207). -/
theorem execLdVxK_fbBlind (x : Nibble) : FbBlind (execLdVxK x) := by
  intro fb s t h
  simp only [execLdVxK, withFb_key] at h ⊢
  cases hk : s.key with
  | none => simp only [hk] at h ⊢; cases h; rfl
  | some k => simp only [hk] at h ⊢; cases h; rfl

/-- Every instruction but `00E0` and `DXYN` is blind to the framebuffer (42_display.md R177). -/
theorem exec_fbBlind {i : Instr} (hcls : i ≠ .cls) (hdrw : ∀ x y n, i ≠ .drw x y n) : FbBlind (exec i) := by
  cases i with
  | cls => exact absurd rfl hcls
  | drw x y n => exact absurd rfl (hdrw x y n)
  | ret => exact .of_commit fun fb s => returnFromCall_withFb fb s.advance
  | sys nnn => exact .of_commit (g := fun _ => .error ⟨.legacyCall, none⟩) fun _ _ => rfl
  | call nnn => exact .of_commit fun fb s => callTo_withFb _ fb s.advance
  | ldBVx _ | ldMemVx _ => exact .of_commit fun fb s => storeAtI_withFb _ fb s.advance
  | ldVxMem x => exact .of_commit fun fb s => loadFromI_withFb x fb s.advance
  | seImm _ _ | sneImm _ _ | seReg _ _ | sneReg _ _ | skp _ | sknp _ =>
    exact .of_update fun fb s => skipIf_withFb _ fb s.advance
  | ldVxK x => exact execLdVxK_fbBlind x
  | _ => exact .of_update fun _ _ => rfl

/-- `00E0` leaves the same state whatever was on the screen (42_display.md R173). -/
theorem exec_cls_withFb (fb : Framebuffer) (s : State) : exec .cls (s.withFb fb) = exec .cls s := rfl

/-- Settles O45: the writers from `hostStep_changes_fb`, the readers from `exec_fbBlind`, or `exec_cls_withFb`
for `00E0`. -/
theorem onlyDrawAndClearTouchTheFramebuffer : Obligations.OnlyDrawAndClearTouchTheFramebuffer := by
  refine ⟨fun _ _ _ => hostStep_changes_fb, fun i s t fb hdrw h => ?_⟩
  by_cases hcls : i = .cls
  · subst hcls
    rw [if_pos rfl]
    exact (exec_cls_withFb fb s).trans h
  · rw [if_neg hcls]
    exact exec_fbBlind hcls hdrw fb s t h

end Sys2Proof.Machine
end

section
/-! Keys and timers (43_keys_timers.md R200 to R212)

The two key skips differ in the sense of one comparison with the latch, which `keyIs_of_match` and
`keyIs_of_no_match` decide; the two timers fall by one rule (`flooredDecrement_toNat`). -/

namespace Sys2Proof.Machine

/-! ## The comparison with the latch (43_keys_timers.md R202) -/

theorem key_setWidth_toNat (k : Nibble) : (k.setWidth 8).toNat = k.toNat :=
  BitVec.toNat_setWidth_of_le (by decide)

theorem keyIs_of_match {s : State} {b : Byte} {k : Nibble} (hk : s.key = some k) (h : k.toNat = b.toNat) :
    keyIs s b = true := by
  simp only [keyIs, hk]
  exact beq_iff_eq.2 (BitVec.eq_of_toNat_eq ((key_setWidth_toNat k).trans h))

theorem keyIs_of_no_match {s : State} {b : Byte} (h : ∀ k, s.key = some k → k.toNat ≠ b.toNat) :
    keyIs s b = false := by
  unfold keyIs
  cases hk : s.key with
  | none => rfl
  | some k => exact beq_eq_false_iff_ne.2 fun e => h k hk (e ▸ (key_setWidth_toNat k).symm)

/-! ## The key skips (43_keys_timers.md R203, R204) -/

/-- An instruction that skips on `g` of the comparison changes `PC` only, by what `g` says of a match and of no
match. -/
theorem exec_keySkip (g : Bool → Bool) {i : Instr} {s : State} {b : Byte}
    (he : exec i s = .next (s.advance.skipIf (g (keyIs s b)))) :
    ∃ t, exec i s = .next t ∧
      (∀ k, s.key = some k → k.toNat = b.toNat → t.pc = if g true then s.pc + 4#16 else s.pc + 2#16) ∧
      ((∀ k, s.key = some k → k.toNat ≠ b.toNat) → t.pc = if g false then s.pc + 4#16 else s.pc + 2#16) ∧
      OnlyChanges (fun c => c = .pc) s t := by
  refine ⟨_, he, fun k hk hmatch => ?_, fun hno => ?_, onlyChanges_skipIf s _⟩
  · rw [advance_skipIf_pc, keyIs_of_match hk hmatch]
  · rw [advance_skipIf_pc, keyIs_of_no_match hno]

/-- Settles O32, from `exec_keySkip`. -/
theorem keySkips : Obligations.KeySkips := fun x _ =>
  ⟨decodes_of_encode rfl (packXkk_eq_ofNat_low 0xE#4 x 0x9E#8),
    decodes_of_encode rfl (packXkk_eq_ofNat_low 0xE#4 x 0xA1#8),
    exec_keySkip id rfl, exec_keySkip not rfl⟩

/-! ## The key wait (43_keys_timers.md R205, R207) -/

/-- The rewind undoes the fetch's advance, so waiting is no change at all. -/
theorem exec_ldVxK_of_none {s : State} (x : Nibble) (hk : s.key = none) : exec (.ldVxK x) s = .next s := by
  simp only [exec, execLdVxK, hk, advance_rewind]

theorem exec_ldVxK_of_some {s : State} {k : Nibble} (x : Nibble) (hk : s.key = some k) :
    exec (.ldVxK x) s = .next (s.advance.setV x (k.setWidth 8)) := by
  simp only [exec, execLdVxK, hk]

/-- Settles O33, from `exec_ldVxK_of_none` and `exec_ldVxK_of_some`. -/
theorem keyWait : Obligations.KeyWait := by
  refine fun x s => ⟨decodes_of_encode rfl (packXkk_eq_ofNat_low 0xF#4 x 0x0A#8), exec_ldVxK_of_none x,
    fun k hk => ⟨_, exec_ldVxK_of_some x hk, ?_, rfl, onlyChanges_setV s x _⟩⟩
  rw [getV_setV_self, key_setWidth_toNat]

/-! ## The timers (43_keys_timers.md R206, R208, R209, R212) -/

/-- Settles O34: the frames of the two timer writes are those of `completes_ldDtVx` and `completes_ldStVx`. -/
theorem timerInstructions : Obligations.TimerInstructions := fun x s =>
  ⟨decodes_of_encode rfl (packXkk_eq_ofNat_low 0xF#4 x 0x07#8),
    decodes_of_encode rfl (packXkk_eq_ofNat_low 0xF#4 x 0x15#8),
    decodes_of_encode rfl (packXkk_eq_ofNat_low 0xF#4 x 0x18#8),
    ⟨_, rfl, getV_setV_self _ _ _, rfl, onlyChanges_setV s x _⟩,
    ⟨_, rfl, rfl, rfl, (completes_ldDtVx x s _).frame⟩,
    ⟨_, rfl, rfl, rfl, (completes_ldStVx x s _).frame⟩⟩

theorem tickTimers_of_halted {s : State} (hh : s.halted = true) : tickTimers s = s := by
  rw [tickTimers, if_pos hh]

theorem tickTimers_of_running {s : State} (hh : s.halted = false) :
    tickTimers s = { s with
      dt := if 0#8 < s.dt then s.dt - 1#8 else s.dt
      st := if 0#8 < s.st then s.st - 1#8 else s.st } := by
  rw [tickTimers, if_neg (Bool.eq_false_iff.1 hh)]

/-- The decrement of a timer is the truncated subtraction of the naturals. -/
theorem flooredDecrement_toNat (b : Byte) : (if 0#8 < b then b - 1#8 else b).toNat = b.toNat - 1 := by
  split
  · bv_omega
  · bv_omega

/-- Settles O35, from `flooredDecrement_toNat`; the frame is that of `onlyChanges_tickTimers`. -/
theorem tickFloorsAtZero : Obligations.TickFloorsAtZero := by
  refine fun s => ⟨fun hh => congrArg _ (tickTimers_of_halted hh), fun hh => ?_⟩
  refine ⟨_, rfl, ?_, ?_, onlyChanges_tickTimers s⟩
  · rw [tickTimers_of_running hh]; exact flooredDecrement_toNat s.dt
  · rw [tickTimers_of_running hh]; exact flooredDecrement_toNat s.st

/-! ## The host's key events (43_keys_timers.md R200) -/

theorem setKey_of_lt {k : Nat} (h : k < 16) (s : State) :
    setKey (some k) s = .next { s with key := some (BitVec.ofNat 4 k) } := if_pos h

theorem setKey_of_le {k : Nat} (h : 16 ≤ k) (s : State) : setKey (some k) s = .refused (.setKeyArgument k) :=
  if_neg (Nat.not_lt.2 h)

/-- Settles O36: a key below 16 is kept by the latch's four bits; the frame is that of `onlyChanges_key`. -/
theorem setKeyWritesTheLatch : Obligations.SetKeyWritesTheLatch := by
  refine fun s => ⟨⟨_, rfl, rfl, onlyChanges_key s none⟩, fun k hk => ?_, fun k hk => setKey_of_le hk s⟩
  exact ⟨_, setKey_of_lt hk s, ⟨_, rfl, Nat.mod_eq_of_lt hk⟩, onlyChanges_key s _⟩

end Sys2Proof.Machine
end

section
/-! Memory transfer (44_memory_transfer.md R230 to R236)

`FX33` and `FX55` store a list of bytes from `I` up and `FX65` loads the bytes from `I` up; each is fatal exactly
when the range of those bytes is. The round trip reads back through the load what the store left. -/

namespace Sys2Proof.Machine

/-! ## The fatals (44_memory_transfer.md R230, R232, R234) -/

theorem exec_fatal {i : Instr} {s : State} {r : Raised} {op : Word} (hfatal : fatalOf i s = some r)
    (hword : encode i = op) : exec i s = .next (haltedWith s r.cause (some op) r.addr) := by
  subst hword
  exact exec_of_fatalOf_some hfatal

/-- An instruction that stores at most 16 bytes from `I` up: in the font the first byte is the fatal one, else the
first one past the end of memory. -/
theorem exec_store_fatal {i : Instr} {s : State} {op : Word} {n : Nat} (hn : n < 16)
    (hfatal : fatalOf i s = writeFatal s.i.toNat (s.i.toNat + n)) (hword : encode i = op) :
    (s.i.toNat ≤ 0x04F → exec i s = .next (haltedWith s .fontWrite (some op) (some s.i.toNat))) ∧
    (4095 ≤ s.i.toNat + n →
      exec i s = .next (haltedWith s .memBounds (some op) (some (max s.i.toNat 4095)))) := by
  refine ⟨fun hfont => ?_, fun hpast => ?_⟩
  · exact exec_fatal (hfatal.trans (writeFatal_of_font (Nat.lt_succ_of_le hfont))) hword
  · have hfont : 0x050 ≤ s.i.toNat := by omega
    exact exec_fatal (hfatal.trans ((writeFatal_of_le hfont).trans (readFatal_of_le hpast))) hword

/-! ## The stores (44_memory_transfer.md R230, R232) -/

/-- A store from `I` up that fits changes memory only; on a canonical memory each stored byte reads back. -/
theorem storeAtI_advance_ok {s : State} {bs : List Byte} (hfont : fontSize ≤ s.i.toNat)
    (hfit : s.i.toNat + bs.length ≤ memSize) :
    ∃ m, storeAtI bs s.advance = .ok { s.advance with mem := m } ∧
      (s.mem.wf → ∀ (k : Nat) (b : Byte), bs[k]? = some b → m.read (s.i.toNat + k) = b) := by
  obtain ⟨m, hstore, -, hread⟩ := storeAtI_ok s.advance bs hfont hfit
  refine ⟨m, hstore, fun hm k b hb => ?_⟩
  obtain ⟨hk, rfl⟩ := List.getElem?_eq_some_iff.1 hb
  exact (hread hm).2 k hk

theorem completes_ldBVx {x : Nibble} {s t : State} (h : storeAtI (decimalDigits (s.getV x)) s.advance = .ok t) :
    Completes (.ldBVx x) s t :=
  completes_store (bs := decimalDigits (s.getV x)) ⟨x, .inl rfl⟩ (.inl rfl)
    (fun k hk => .inr ⟨k, hk, rfl⟩) h

theorem completes_ldMemVx {x : Nibble} {s t : State} (h : storeAtI (s.firstRegs x) s.advance = .ok t) :
    Completes (.ldMemVx x) s t :=
  completes_store ⟨x, .inr rfl⟩ (.inl rfl)
    (fun k hk => .inr ⟨k, Nat.le_of_lt_succ (hk.trans_eq (firstRegs_length s x)), rfl⟩) h

theorem exec_ldBVx_of_ok {x : Nibble} {s t : State} (h : storeAtI (decimalDigits (s.getV x)) s.advance = .ok t) :
    exec (.ldBVx x) s = .next t := congrArg (commit _ s) h

theorem exec_ldMemVx_of_ok {x : Nibble} {s t : State} (h : storeAtI (s.firstRegs x) s.advance = .ok t) :
    exec (.ldMemVx x) s = .next t := congrArg (commit _ s) h

/-- Settles O37: the digits are stored by `storeAtI_advance_ok`, and each fits a byte. -/
theorem decimalStore : Obligations.DecimalStore := by
  intro x s
  have hword := packXkk_eq_ofNat_low 0xF#4 x 0x33#8
  refine ⟨decodes_of_encode rfl hword, fun hfont hfit => ?_, exec_store_fatal (by decide) rfl hword⟩
  obtain ⟨m, hstore, hread⟩ := storeAtI_advance_ok (bs := decimalDigits (s.getV x)) hfont hfit
  refine ⟨_, exec_ldBVx_of_ok hstore, rfl, (completes_ldBVx hstore).frame, fun hm => ?_⟩
  have hdigit {k n : Nat} (hn : n < 256) (hk : (decimalDigits (s.getV x))[k]? = some (BitVec.ofNat 8 n)) :
      (m.read (s.i.toNat + k)).toNat = n :=
    (congrArg BitVec.toNat (hread hm k _ hk)).trans (Nat.mod_eq_of_lt hn)
  have hbyte := (s.getV x).isLt
  exact ⟨hdigit (k := 0) (by omega) rfl, hdigit (by omega) rfl, hdigit (by omega) rfl⟩

/-- `FX55` that fits stores `V0..Vx`. -/
theorem storeAtI_firstRegs_ok {x : Nibble} {s : State} (hfont : fontSize ≤ s.i.toNat)
    (hfit : s.i.toNat + x.toNat < memSize) :
    ∃ m, storeAtI (s.firstRegs x) s.advance = .ok { s.advance with mem := m } ∧
      (s.mem.wf → ∀ y : Nibble, y.toNat ≤ x.toNat → m.read (s.i.toNat + y.toNat) = s.getV y) := by
  obtain ⟨m, hstore, hread⟩ := storeAtI_advance_ok (bs := s.firstRegs x) hfont (by rwa [firstRegs_length])
  exact ⟨m, hstore, fun hm y hy => hread hm y.toNat _ (firstRegs_getElem? hy)⟩

/-- Settles O38, from `storeAtI_firstRegs_ok`. -/
theorem registerStore : Obligations.RegisterStore := by
  intro x s
  have hword := packXkk_eq_ofNat_low 0xF#4 x 0x55#8
  refine ⟨decodes_of_encode rfl hword, fun hfont hfit => ?_, exec_store_fatal x.isLt rfl hword⟩
  obtain ⟨m, hstore, hread⟩ := storeAtI_firstRegs_ok hfont hfit
  exact ⟨_, exec_ldMemVx_of_ok hstore, rfl, (completes_ldMemVx hstore).frame, hread⟩

/-! ## The load and the round trip (44_memory_transfer.md R234, R236) -/

theorem exec_ldVxMem_of_ok {x : Nibble} {s t : State} (h : loadFromI x s.advance = .ok t) :
    exec (.ldVxMem x) s = .next t := congrArg (commit _ s) h

/-- Settles O39: the values are those of `loadFromI_ok`, the frame that of `completes_ldVxMem`. -/
theorem registerLoad : Obligations.RegisterLoad := by
  intro x s
  have hword := packXkk_eq_ofNat_low 0xF#4 x 0x65#8
  refine ⟨decodes_of_encode rfl hword, fun hfit => ?_, fun hpast => ?_⟩
  · obtain ⟨v, hload, hget⟩ := loadFromI_ok x s.advance hfit
    exact ⟨_, exec_ldVxMem_of_ok hload, fun y hy => (hget y).trans (if_pos hy), rfl, (completes_ldVxMem hload).frame⟩
  · exact exec_fatal (i := .ldVxMem x) (readFatal_of_le hpast) hword

/-- Settles O40: `V0..Vx` are loaded from the bytes the store left at the same `I`, and the load leaves the
registers above `Vx` alone. -/
theorem storeThenLoadRestoresRegisters : Obligations.StoreThenLoadRestoresRegisters := by
  intro x s hm hfont hfit
  obtain ⟨m, hstore, hread⟩ := storeAtI_firstRegs_ok hfont hfit
  obtain ⟨v, hload, hget⟩ := loadFromI_ok x ({ s.advance with mem := m } : State).advance hfit
  refine ⟨_, _, exec_ldMemVx_of_ok hstore, exec_ldVxMem_of_ok hload, fun y => (hget y).trans ?_, rfl⟩
  split
  case isTrue hy => exact hread hm y hy
  case isFalse => rfl

end Sys2Proof.Machine
end

section
/-! Exceptions and the host interface (60_exceptions.md R250 to R274)

No step stops the model: an instruction completes or takes its fatal, which is a next state. A fatal is final
because every host operation keeps a halted block halted (`hostStep_of_halted`), and `runSession_induct` carries
that, and the invariant, along every schedule. -/

namespace Sys2Proof.Machine

/-! ## Construction (60_exceptions.md R273; 70_reset_and_hazards.md R280) -/

/-- A constructed session runs, with no fault and canonical memory. -/
theorem construct_running {program : List Byte} {quirk : Bool} {font : Vector Byte 80} {fill : Nat → Byte}
    {s : State} (h : construct program quirk font fill = .next s) :
    s.mem.wf ∧ s.halted = false ∧ s.fault = none := by
  obtain ⟨-, hmem, -, hs⟩ := construct_cases h
  exact ⟨hmem, hs ▸ rfl, hs ▸ rfl⟩

/-! ## The invariant of a session (60_exceptions.md R269, R273) -/

theorem runSession_inv {ops : List HostOp} {s t : State} (hs : Inv s) (h : runSession ops s = .next t) : Inv t :=
  runSession_induct (fun _ _ _ => hostStep_inv) ops hs h

/-- Settles O49, from `runSession_inv` and `construct_running`. -/
theorem invariantHoldsInEverySession : Obligations.InvariantHoldsInEverySession := by
  refine ⟨fun _ _ _ => runSession_inv, fun _ _ _ _ _ h => ?_⟩
  obtain ⟨hmem, hhalted, hfault⟩ := construct_running h
  exact .of_running hmem hhalted hfault

/-! ## The halt (60_exceptions.md R255) -/

theorem step_of_halted {s : State} (hh : s.halted = true) : step s = .next s := if_pos hh

/-- No host operation restarts a halted block or writes its `FAULT` again. -/
theorem hostStep_of_halted {op : HostOp} {s t : State} (hh : s.halted = true) (h : hostStep op s = .next t) :
    t.halted = true ∧ t.fault = s.fault := by
  obtain ⟨-, h⟩ | ⟨-, rfl⟩ | ⟨-, k, rfl⟩ | rfl := hostStep_cases h
  · cases (step_of_halted hh).symm.trans h
    exact ⟨hh, rfl⟩
  · rw [tickTimers_of_halted hh]
    exact ⟨hh, rfl⟩
  · exact ⟨hh, rfl⟩
  · exact ⟨hh, rfl⟩

theorem runSession_of_halted {ops : List HostOp} {s t : State} (hh : s.halted = true)
    (h : runSession ops s = .next t) : t.halted = true ∧ t.fault = s.fault := by
  refine runSession_induct (P := fun u => u.halted = true ∧ u.fault = s.fault) ?_ ops ⟨hh, rfl⟩ h
  rintro op u u' ⟨hu, hfault⟩ hop
  obtain ⟨hu', hfault'⟩ := hostStep_of_halted hu hop
  exact ⟨hu', hfault'.trans hfault⟩

/-- Settles O9: the schedules by `runSession_of_halted`, the new core by `construct_running`. -/
theorem haltedBlockStaysHalted : Obligations.HaltedBlockStaysHalted := by
  refine ⟨fun s hh => ⟨step_of_halted hh, congrArg _ (tickTimers_of_halted hh), rfl, fun _ hk => setKey_of_lt hk s,
    rfl, rfl, ?_, fun _ _ => runSession_of_halted hh⟩, fun _ _ _ _ _ h => ?_⟩
  · rw [hostResult, hh]
  · obtain ⟨-, hhalted, -⟩ := construct_running h
    exact hhalted

/-! ## Fatals are next states (60_exceptions.md R250, R252 to R254; log entry 10) -/

/-- Settles O55: `exec_commits` ties each instruction to its fatal. -/
theorem instructionFatalsAreExact : Obligations.InstructionFatalsAreExact :=
  fun _ _ => ⟨fun _ => exec_of_fatalOf_some, exec_of_fatalOf_none⟩

theorem exec_next (i : Instr) (s : State) : ∃ t, exec i s = .next t := by
  obtain ⟨g, hg⟩ := exec_commits i s
  rw [hg.exec_eq]
  exact commit_next (encode i) s g

theorem step_next (s : State) : ∃ t, step s = .next t := by
  obtain ⟨-, ht⟩ | ⟨-, r, -, ht⟩ | ⟨-, op, -, -, ht⟩ | ⟨-, op, i, -, -, he⟩ := step_cases (s := s) rfl
  · exact ⟨_, ht⟩
  · exact ⟨_, ht⟩
  · exact ⟨_, ht⟩
  · rw [he]
    exact exec_next i s

/-- Settles O10. -/
theorem everyStepAnswersNext : Obligations.EveryStepAnswersNext := ⟨step_next, exec_next⟩

/-! ## The reads of the host (60_exceptions.md R270 to R272) -/

theorem readFramebuffer_length (s : State) : (readFramebuffer s).length = 2048 := by
  rw [readFramebuffer, List.length_map, List.length_range]

theorem readFramebuffer_getElem? (s : State) {k : Nat} (hk : k < 2048) :
    (readFramebuffer s)[k]? = some (fbGet s.fb k) := by
  rw [readFramebuffer, List.getElem?_map, List.getElem?_range hk, Option.map_some]

/-- Settles O54: the positions `px + py * 64` of the screen are those below 2048. -/
theorem hostReadsHaveNoSideEffect : Obligations.HostReadsHaveNoSideEffect := by
  refine fun s => ⟨rfl, rfl, rfl, ⟨_, rfl, readFramebuffer_length s, fun px py hx hy => ?_⟩,
    ⟨_, rfl, rfl, rfl, rfl, rfl, rfl⟩, rfl⟩
  exact readFramebuffer_getElem? s (by omega)

end Sys2Proof.Machine
end

section
/-! Reset and construction (70_reset_and_hazards.md R280, R282; 10_state.md R39)

Memory after construction has three parts, font, program and fill, and `constructByte` gives each its own;
every other component is the reset state's. -/

namespace Sys2Proof.Machine

/-! ## The three parts of the constructed memory -/

theorem constructByte_font (program : List Byte) (font : Vector Byte 80) (fill : Nat → Byte) (a : Fin 80) :
    constructByte program font fill a.val = font[a.val] := dif_pos a.isLt

theorem constructByte_program (program : List Byte) (font : Vector Byte 80) (fill : Nat → Byte)
    (k : Fin program.length) : constructByte program font fill (progBase + k.val) = program[k.val] := by
  have hfont : ¬ progBase + k.val < 80 := by simp only [progBase]; omega
  rw [constructByte, dif_neg hfont, if_pos (Nat.le_add_right _ _), Nat.add_sub_cancel_left]
  exact List.getD_eq_getElem program _ k.isLt

theorem constructByte_fill {program : List Byte} (font : Vector Byte 80) (fill : Nat → Byte) {a : Nat}
    (hfont : 80 ≤ a) (hout : a < progBase ∨ progBase + program.length ≤ a) :
    constructByte program font fill a = fill a := by
  rw [constructByte, dif_neg (Nat.not_lt.mpr hfont)]
  obtain hbelow | habove := hout
  · exact if_neg (Nat.not_le.mpr hbelow)
  · rw [if_pos (by omega)]
    exact List.getD_eq_default program _ (by omega)

/-! ## Refusal and success -/

theorem construct_refused {program : List Byte} (quirk : Bool) (font : Vector Byte 80) (fill : Nat → Byte)
    (hbig : memSize < progBase + program.length) :
    construct program quirk font fill = .refused (.programTooLarge program.length) := if_pos hbig

theorem construct_next {program : List Byte} (quirk : Bool) (font : Vector Byte 80) (fill : Nat → Byte)
    (hfits : progBase + program.length ≤ memSize) : ∃ s, construct program quirk font fill = .next s :=
  ⟨_, if_neg (Nat.not_lt.mpr hfits)⟩

/-! ## The reset values of the registers, the stack and the framebuffer (10_state.md R39) -/

theorem reset_getV (x : Nibble) : State.reset.getV x = 0#8 := Vector.getElem_replicate x.isLt

theorem reset_stack (j : Fin 16) : State.reset.stack[j.val] = 0#16 := Vector.getElem_replicate j.isLt

theorem reset_fbGet (k : Nat) : fbGet State.reset.fb k = false := fbClear_get k

/-- Settles O52: `construct_cases` gives the memory, by its three parts, and the reset state beside it. -/
theorem constructionLeavesTheTable : Obligations.ConstructionLeavesTheTable := by
  refine fun program quirk font fill => ⟨construct_refused quirk font fill, fun hfits => ?_⟩
  obtain ⟨s, hs⟩ := construct_next quirk font fill hfits
  obtain ⟨-, -, hread, hreset⟩ := construct_cases hs
  have hfont (a : Fin 80) : s.mem.read a.val = font[a.val] :=
    (hread a.val (a.isLt.trans (by decide))).trans (constructByte_font program font fill a)
  have hprogram (k : Fin program.length) : s.mem.read (progBase + k.val) = program[k.val] :=
    (hread _ (Nat.lt_of_lt_of_le (Nat.add_lt_add_left k.isLt _) hfits)).trans
      (constructByte_program program font fill k)
  have hfill (a : Nat) (ha : a < memSize) (hlow : 80 ≤ a)
      (hout : a < progBase ∨ progBase + program.length ≤ a) : s.mem.read a = fill a :=
    (hread a ha).trans (constructByte_fill font fill hlow hout)
  refine ⟨s, hs, ?_⟩
  generalize s.mem = m at *
  subst hreset
  exact ⟨reset_getV, rfl, rfl, rfl, reset_stack, rfl, rfl, rfl, reset_fbGet, hfont, hprogram, hfill, rfl, rfl, rfl⟩

end Sys2Proof.Machine
end
